-- ==== Sys2Proof/Word.lean ====
section
/-! DEFINITION. The widths of CORE's values (00_scope.md R10, R11): every value is unsigned. -/

namespace Sys2Proof

/-- A byte of memory (R13). -/
abbrev Byte := BitVec 8

/-- A 64-bit port register, address or length: `ADDR_W` = 64 (R10, R22). -/
abbrev Word := BitVec 64

/-- A 32-bit value: a command word, the STATUS register, a CRC-32 accumulator (R10, R22, R70). -/
abbrev Word32 := BitVec 32

end Sys2Proof
end

