-- ==== Sys2Proof/Syntax.lean ====
section
/-! DEFINITION. The commands of CORE (30_encoding.md R72), the port operations of a host context (R80), and the lines of
the assembler's syntax (R79, R80, R82). -/

namespace Sys2Proof

/-- The seven commands: one constructor per row of the opcode table (R3, R72). A command word has no register fields and
no immediates (R70), so no constructor has an argument. -/
inductive Instr
  /-- the Dispatcher's entry point for CRC-32 (R197) -/
  | crc32
  /-- the Dispatcher's entry point for CRC-64 (R198) -/
  | crc64
  /-- the Generic Computer for CRC-32 (R112) -/
  | gen32
  /-- the Generic Computer for CRC-64 (R113) -/
  | gen64
  /-- the Accelerated Computer for CRC-32 (R162) -/
  | fold32
  /-- the Accelerated Computer for CRC-64 (R163) -/
  | fold64
  /-- the CPU Feature Detector (R136) -/
  | detect
deriving DecidableEq, Repr

/-- The six port registers of a context by name (10_state.md R22). -/
inductive RegName
  | cmd | addr | len | crcin | result | status
deriving DecidableEq, Repr

/-- The operand registers: those a host may write by `set` (R22, R80). -/
inductive OperandReg
  | addr | len | crcin
deriving DecidableEq, Repr

/-- The registers a host may read (R22: all but the write-only `CMD`). -/
inductive ReadReg
  | addr | len | crcin | result | status
deriving DecidableEq, Repr

/-- One action of a host context on CORE or on memory. Only actions the spec allows can be written: no `set` to RESULT or
STATUS (R80) and no read of CMD (R22). -/
inductive PortOp
  /-- `set r, v` (R80) -/
  | set (r : OperandReg) (v : Word)
  /-- `mov CRCIN, RESULT` (R80) -/
  | movCrcinResult
  /-- `read r` (R80; R22 for the operand registers) -/
  | read (r : ReadReg)
  /-- a write of a command word to CMD, which issues the command (R70) -/
  | issue (w : Word32)
  /-- a host's own write of one byte of memory, which later commands see (20_memory.md R63, R67); that it is one byte is the
  model's choice (assumption 16) -/
  | store (a : Word) (b : Byte)
deriving DecidableEq, Repr

/-- A line of a program in the assembler's syntax (R79, R80, R82). A line may be ill-formed: see WellFormed. -/
inductive AsmLine
  /-- a mnemonic alone (R79) -/
  | command (i : Instr)
  /-- `.word v` (R79) -/
  | word (v : Word32)
  /-- `set r, v` (R80) -/
  | set (r : RegName) (v : Word)
  /-- `mov dst, src` (R80) -/
  | mov (dst src : RegName)
  /-- `read r` (R80) -/
  | read (r : RegName)
  /-- the pseudo-instruction `m a, n, c` (R82) -/
  | call (m : Instr) (a n c : Word)
  /-- the pseudo-instruction `m.new a, n` (R82) -/
  | fresh (m : Instr) (a n : Word)
  /-- the pseudo-instruction `m.chain a, n` (R82) -/
  | chain (m : Instr) (a n : Word)
deriving DecidableEq, Repr

end Sys2Proof
end

