-- ==== Sys2Proof/WellFormed.lean ====
section
/-! DEFINITION. Which lines the assembler accepts (30_encoding.md R79, R80, R82). A command has no fields (R70), so every
`Instr` is well formed; the checks are about lines. -/

namespace Sys2Proof

/-- The registers `set` may write: "No other register can be written" (R80). -/
def RegName.operand? : RegName → Option OperandReg
  | .addr => some .addr
  | .len => some .len
  | .crcin => some .crcin
  | .cmd => none
  | .result => none
  | .status => none

/-- The registers `read` may name: R80 gives `read RESULT` and `read STATUS`. -/
def RegName.readable? : RegName → Option ReadReg
  | .result => some .result
  | .status => some .status
  | .cmd => none
  | .addr => none
  | .len => none
  | .crcin => none

/-- The commands with a pseudo-instruction `m a, n, c` (R82): every command but DETECT. -/
def Instr.takesBuffer : Instr → Bool
  | .crc32 => true
  | .crc64 => true
  | .gen32 => true
  | .gen64 => true
  | .fold32 => true
  | .fold64 => true
  | .detect => false

/-- The commands with `.new` and `.chain` forms (R82): the Dispatcher's. -/
def Instr.isDispatcher : Instr → Bool
  | .crc32 => true
  | .crc64 => true
  | .gen32 => false
  | .gen64 => false
  | .fold32 => false
  | .fold64 => false
  | .detect => false

/-- A line the assembler accepts. -/
def AsmLine.wf : AsmLine → Bool
  | .command _ => true
  | .word _ => true
  | .set r _ => r.operand?.isSome
  | .mov dst src => dst = .crcin && src = .result
  | .read r => r.readable?.isSome
  | .call m _ _ _ => m.takesBuffer
  | .fresh m _ _ => m.isDispatcher
  | .chain m _ _ => m.isDispatcher

end Sys2Proof
end

