-- ==== Sys2Proof/Decode.lean ====
section
/-! DEFINITION. Decoding of command words (30_encoding.md R70 to R78), total and rejecting by name; the encoder beside it
(R72); and the assembler from lines to port operations (R79, R80, R82). -/

namespace Sys2Proof

/-- The two decode faults (R75, R76). -/
inductive DecodeFault
  /-- OPC is not one of the seven assigned values (R75) -/
  | illegalOpcode
  /-- OPC is assigned and RSV is not 0 (R76) -/
  | reservedBits
deriving DecidableEq, Repr

/-- The field RSV, bits 31:8 (R70). -/
def rsvField (w : Word32) : BitVec 24 := w.extractLsb' 8 24

/-- The field CLASS, bits 7:4 (R70). -/
def classField (w : Word32) : BitVec 4 := w.extractLsb' 4 4

/-- The field WSEL, bits 3:0 (R70). -/
def wselField (w : Word32) : BitVec 4 := w.extractLsb' 0 4

/-- The command a component and a width select (R70, R72): CLASS 0 the Dispatcher, 1 the Generic Computer, 2 the
Accelerated Computer, 3 the Detector; WSEL 1 is CRC-32, 2 is CRC-64, 0 is no width. -/
def commandOf (cls wsel : BitVec 4) : Option Instr :=
  match cls.toNat, wsel.toNat with
  | 0, 1 => some .crc32
  | 0, 2 => some .crc64
  | 1, 1 => some .gen32
  | 1, 2 => some .gen64
  | 2, 1 => some .fold32
  | 2, 2 => some .fold64
  | 3, 0 => some .detect
  | _, _ => none

/-- The decoder of R78. The opcode is tested before the reserved bits. -/
def decode (w : Word32) : Except DecodeFault Instr :=
  match commandOf (classField w) (wselField w) with
  | none => .error .illegalOpcode
  | some i => if rsvField w = 0 then .ok i else .error .reservedBits

/-- The field CLASS of a command (R72). -/
def Instr.cls : Instr → BitVec 4
  | .crc32 => 0
  | .crc64 => 0
  | .gen32 => 1
  | .gen64 => 1
  | .fold32 => 2
  | .fold64 => 2
  | .detect => 3

/-- The field WSEL of a command (R72). -/
def Instr.wsel : Instr → BitVec 4
  | .crc32 => 1
  | .crc64 => 2
  | .gen32 => 1
  | .gen64 => 2
  | .fold32 => 1
  | .fold64 => 2
  | .detect => 0

/-- The command word of a command: RSV = 0, then CLASS, then WSEL (R70, R72). -/
def encode (i : Instr) : Word32 := (0 : BitVec 24) ++ i.cls ++ i.wsel

/-- The decoder on an instruction of the opcode table whose bits are `w`: a command is always one 32-bit word (R71), and
the bits above `nbits` are 0. CMD holds a number, so no byte order is involved (20_memory.md R56). -/
def decodeTableWord (nbits w : Nat) : Option Instr :=
  if nbits ≤ 32 then
    match decode (BitVec.ofNat 32 (w % 2 ^ nbits)) with
    | .ok i => some i
    | .error _ => none
  else none

/-- The three `set` operations that give a buffer command its operands (R82). -/
def setOperands (a n c : Word) : List PortOp :=
  [.set .addr a, .set .len n, .set .crcin c]

/-- The port operations a line stands for, in order; `none` where the assembler refuses the line (R79, R80, R82). -/
def assemble : AsmLine → Option (List PortOp)
  | .command i => some [.issue (encode i)]
  | .word v => some [.issue v]
  | .set r v => r.operand?.map fun r => [.set r v]
  | .mov .crcin .result => some [.movCrcinResult]
  | .mov _ _ => none
  | .read r => r.readable?.map fun r => [.read r]
  | .call m a n c => if m.takesBuffer then some (setOperands a n c ++ [.issue (encode m)]) else none
  | .fresh m a n => if m.isDispatcher then some (setOperands a n 0 ++ [.issue (encode m)]) else none
  | .chain m a n =>
    if m.isDispatcher then some [.set .addr a, .set .len n, .movCrcinResult, .issue (encode m)] else none

end Sys2Proof
end

