-- ==== Sys2Proof/Config.lean ====
section
/-! DEFINITION. What the platform fixes and the spec leaves open (00_scope.md R10), and the one parameter whose value the
spec gives. The open values are constants without a body: nothing can evaluate them or prove a value of them. They are used
by State.reset only; in every other state the platform inputs are fields, over which statements quantify (assumption 4). -/

namespace Sys2Proof

/-- The byte order of the platform's multi-byte loads (R10 `NATIVE_ORDER`); no result depends on it (20_memory.md R55). -/
inductive ByteOrder
  | le | be
deriving DecidableEq, Repr, Inhabited

/-- A range of readable addresses, `size` of them from `first` up (20_memory.md R52, R61). -/
structure Region where
  first : Nat
  size : Nat
deriving DecidableEq, Repr

namespace Config

/-- `NCTX - 1`: the number of host contexts is open and at least 1 (R10, R20). -/
opaque moreContexts : Nat

/-- `QUERY_OK` (R10, 41_detect.md R130). -/
opaque queryOk : Bool

/-- `FEAT_A` (R10, R130). -/
opaque featA : Bool

/-- `FEAT_B` (R10, R130). -/
opaque featB : Bool

/-- `FEAT_C` (R10, R130). -/
opaque featC : Bool

/-- `NATIVE_ORDER` (R10). -/
opaque nativeOrder : ByteOrder

/-- The predicate `readable` of `Mem` (R10, 20_memory.md R52, R61), as the ranges it holds on. -/
opaque readable : List Region

/-- `ACCEL_MIN_LEN`, the smallest length the Dispatcher sends to the accelerator (R10, 43_dispatch.md R192). -/
def accelMinLen : Nat := 31

end Config

end Sys2Proof
end

