-- ==== Sys2Proof/Machine/State.lean ====
section
/-! DEFINITION. The state of CORE, its contexts, the platform and the host interface as plain data (10_state.md, 20_memory.md
R52, 41_detect.md R130), the ways a step can stop, and the state after reset (R36, 70_reset_and_hazards.md R250). -/

namespace Sys2Proof.Machine

/-- The Capability Flag's values (10_state.md R27): UNKNOWN, FALSE, TRUE. -/
inductive Cap
  | unknown | no | yes
deriving DecidableEq, Repr

/-- The values of a cached backend choice (10_state.md R28): UNRESOLVED, GENERIC, ACCEL. -/
inductive Sel
  | unresolved | generic | accel
deriving DecidableEq, Repr

/-- The eight status codes (60_exceptions.md R220): OK and the seven faults, all recorded in STATUS.CODE. -/
inductive StatusCode
  | ok | illegalOpcode | reservedBits | range | misaligned | length | noAccel | memory
deriving DecidableEq, Repr

/-- A port register that holds no value until something writes it (10_state.md R36, 70_reset_and_hazards.md R251): its 64
bits, and whether it holds a value. While it holds none its bits are the reset value of assumption 2. -/
structure HeldReg where
  value : Word
  held : Bool
deriving DecidableEq, Repr

/-- The six port registers of one host context (10_state.md R22). -/
structure Context where
  cmd : Word32
  addr : HeldReg
  len : HeldReg
  crcin : HeldReg
  result : HeldReg
  status : Word32
deriving DecidableEq, Repr

/-- The platform inputs, constant for a process (10_state.md R29, 41_detect.md R130). -/
structure Platform where
  queryOk : Bool
  featA : Bool
  featB : Bool
  featC : Bool
  nativeOrder : ByteOrder
deriving DecidableEq, Repr

/-- The platform memory `Mem` in its two parts (20_memory.md R52; assumption 5). -/
structure Memory where
  /-- where `readable` holds: a parameter of the platform, which nothing changes (R52, R61, R67) -/
  regions : List Region
  /-- the bytes, by rising address; a readable address that is not listed holds `unlistedByte` -/
  cells : List Host.Cell
deriving DecidableEq, Repr

/-- An action of a host context that is still to be taken (20_memory.md R63). -/
structure HostAction where
  ctx : Nat
  op : PortOp
deriving DecidableEq, Repr

/-- A value that a `read` has returned to a host (30_encoding.md R80); STATUS is zero-extended. -/
structure Returned where
  ctx : Nat
  reg : ReadReg
  value : Word
deriving DecidableEq, Repr

/-- The whole machine: CORE, its host contexts, the platform, and the host actions to come. -/
structure State where
  /-- the port registers of context `c` at position `c`; the length is NCTX (R20, R37) -/
  contexts : List Context
  /-- the context whose action is the present step (R21): the model's own field -/
  cur : Nat
  /-- the host actions to come, in their total order (R63): the model's own field -/
  pending : List HostAction
  /-- what `read` has returned so far, newest first (R80): the model's own field -/
  returned : List Returned
  /-- the Capability Flag (R27) -/
  cap : Cap
  /-- the cached backend choice for CRC-32 (R28) -/
  sel32 : Sel
  /-- the cached backend choice for CRC-64 (R28) -/
  sel64 : Sel
  /-- the platform memory (R52) -/
  mem : Memory
  /-- the platform inputs (R29) -/
  platform : Platform
  /-- the refusal mark: some step read a register that held no value (R251) -/
  refusalMark : Bool
deriving DecidableEq, Repr

/-- Why a step stops with a fault. No fault of the spec is here: a command that faults records it in STATUS and the context
goes on (60_exceptions.md R221, R227). -/
inductive Fault
  /-- An action names a context at or above NCTX; the spec has no such agent (10_state.md R20). Raised by every port
  operation and command. Safe: the model stops where the spec has no machine. -/
  | noSuchContext
deriving DecidableEq, Repr

/-- Why a step is refused. -/
inductive Refusal
  /-- An instruction without a meaning in the model. Raised by arms of exec only, and no arm raises it now. Safe. -/
  | notModelled (mnemonic : String)
deriving DecidableEq, Repr

/-- A port register right after reset: it holds no value (R36); its bits are zero (assumption 2). -/
def HeldReg.reset : HeldReg := { value := 0, held := false }

/-- The port registers of a context right after reset: STATUS is 0 (R36); CMD is never read, its bits are zero
(assumption 3). -/
def Context.reset : Context :=
  { cmd := 0, addr := .reset, len := .reset, crcin := .reset, result := .reset, status := 0 }

/-- The open platform inputs of a process (R10, R29; assumption 4). -/
def Platform.reset : Platform :=
  { queryOk := Config.queryOk, featA := Config.featA, featB := Config.featB, featC := Config.featC,
    nativeOrder := Config.nativeOrder }

/-- The machine right after reset (10_state.md R36, 70_reset_and_hazards.md R250, R253): NCTX contexts, at least one, all
live (60_exceptions.md R235); nothing pending, no byte listed, and what is readable open (assumptions 1, 4, 5). -/
def State.reset : State :=
  { contexts := Context.reset :: List.replicate Config.moreContexts Context.reset
    cur := 0
    pending := []
    returned := []
    cap := .unknown
    sel32 := .unresolved
    sel64 := .unresolved
    mem := { regions := Config.readable, cells := [] }
    platform := .reset
    refusalMark := false }

end Sys2Proof.Machine
end

