-- ==== Sys2Proof/Machine/Flags.lean ====
section
/-! DEFINITION. The STATUS register (10_state.md R26) and the status codes (60_exceptions.md R220). CORE has no condition
codes and no predicates (R25): STATUS is its only status state. -/

namespace Sys2Proof.Machine

/-- The number of a status code (R220). -/
def StatusCode.number : StatusCode → BitVec 8
  | .ok => 0x00
  | .illegalOpcode => 0x01
  | .reservedBits => 0x02
  | .range => 0x03
  | .misaligned => 0x04
  | .length => 0x05
  | .noAccel => 0x06
  | .memory => 0x07

/-- The field CODE, bits 7:0 (R26). -/
def statusCode (w : Word32) : BitVec 8 := w.extractLsb' 0 8

/-- The sticky field FAULT, bit 8 (R26). -/
def statusFault (w : Word32) : Bool := w.getLsbD 8

/-- The reserved field, bits 31:9, which reads as 0 (R26). -/
def statusReserved (w : Word32) : BitVec 23 := w.extractLsb' 9 23

/-- A STATUS word from its fields; the reserved bits are 0 (R26). -/
def packStatus (fault : Bool) (code : StatusCode) : Word32 :=
  (0 : BitVec 23) ++ BitVec.ofBool fault ++ code.number

/-- STATUS after a command that completes: CODE is OK and FAULT is unchanged (R26). -/
def statusAfterOk (w : Word32) : Word32 := packStatus (statusFault w) .ok

/-- STATUS after a command that faults: CODE is the code and FAULT is 1 (R26, R221). -/
def statusAfterFault (code : StatusCode) : Word32 := packStatus true code

/-- The STATUS words a run can hold (R26, R220): reserved bits 0, one of the eight codes, and FAULT set whenever the last
command faulted. -/
def statusLegal (w : Word32) : Bool :=
  statusReserved w == 0 && statusCode w ≤ 7 && (statusCode w == 0 || statusFault w)

end Sys2Proof.Machine
end

