-- ==== Sys2Proof/Machine/Ops.lean ====
section
/-! DEFINITION. The named operations over contexts, memory and the outcome of a command: reading and writing the issuing
context, memory reads and host stores, completing a command (30_encoding.md R74), taking a fault (60_exceptions.md R221),
and the refusal mark (70_reset_and_hazards.md R251). -/

namespace Sys2Proof.Machine

/-! ### The issuing context -/

/-- Runs an action of the issuing context on its port registers (10_state.md R21, R37); there is no context at or above
NCTX (R20). -/
def withContext (s : State) (act : Context → State) : Host.Outcome State Fault Refusal :=
  match s.contexts[s.cur]? with
  | some c => .next (act c)
  | none => .fault .noSuchContext

/-- Changes the port registers of the issuing context and no other's (R37). -/
def State.modifyCur (s : State) (f : Context → Context) : State :=
  { s with contexts := s.contexts.modify s.cur f }

/-- A register that the host or a command has written (R251). -/
def HeldReg.written (v : Word) : HeldReg := { value := v, held := true }

/-- Sets the refusal mark unless `ok`; the mark is kept for the whole run (R251; assumption 2). -/
def State.markUnless (s : State) (ok : Bool) : State :=
  { s with refusalMark := s.refusalMark || !ok }

/-! ### The two endings of a command -/

/-- A command completes: RESULT takes the value and STATUS.CODE is OK (R74, R26). -/
def State.complete (s : State) (v : Word) : State :=
  s.modifyCur fun c => { c with result := .written v, status := statusAfterOk c.status }

/-- TAKING A FAULT, the one operation for all of them (R221): STATUS.CODE takes the code and STATUS.FAULT is 1. RESULT keeps
what it had, nothing else changes, and control goes nowhere (R226). There is no return: the context goes on with its next
action, and only reset clears FAULT (R227). -/
def State.raise (s : State) (code : StatusCode) : State :=
  s.modifyCur fun c => { c with status := statusAfterFault code }

/-- The status code of a decode fault (R75, R76, R220). -/
def decodeStatus : DecodeFault → StatusCode
  | .illegalOpcode => .illegalOpcode
  | .reservedBits => .reservedBits

/-- A command word that does not decode: no operand register and no memory is read (R78), and no cell changes (R225). -/
def raiseDecodeFault (f : DecodeFault) (s : State) : Host.Outcome State Fault Refusal :=
  withContext s fun _ => s.raise (decodeStatus f)

/-! ### Memory -/

/-- What a readable address holds until a host stores to it: DESIGN CHOICE, unsafe; the spec leaves the bytes of `Mem` open
(20_memory.md R52; assumption 5). -/
def unlistedByte : Byte := 0

/-- Whether an address lies in a region. -/
def covers (r : Region) (a : Nat) : Bool := r.first ≤ a && a < r.first + r.size

/-- `readable(a)` (R52, R61): the platform's regions inside the 64-bit address space (R50). -/
def Memory.readable (m : Memory) (a : Nat) : Bool := a < 2 ^ 64 && m.regions.any fun r => covers r a

/-- The byte that a list of cells gives an address. -/
def byteAt : List Host.Cell → Nat → Byte
  | [], _ => unlistedByte
  | (k, v) :: cells, a => if k = a then v else byteAt cells a

/-- `Mem[a]`, or none where the address is not readable (R52). -/
def Memory.read (m : Memory) (a : Nat) : Option Byte := if m.readable a then some (byteAt m.cells a) else none

/-- `MemRead(a, n)` (00_scope.md R14, R52, R53): the `n` bytes from `a` up, or none if one of them is not readable. -/
def Memory.bytes (m : Memory) (a : Nat) : Nat → Option (List Byte)
  | 0 => some []
  | n + 1 =>
    match m.read a with
    | none => none
    | some b => (Memory.bytes m (a + 1) n).map (b :: ·)

/-- A cell in front of the cells above it; the byte of an unlisted address is not listed. -/
def consCell (a : Nat) (b : Byte) (cells : List Host.Cell) : List Host.Cell :=
  if b = unlistedByte then cells else (a, b) :: cells

/-- The cells with another byte at one address, in the same canonical form. -/
def putByte : List Host.Cell → Nat → Byte → List Host.Cell
  | [], a, b => consCell a b []
  | (k, v) :: cells, a, b =>
    if a < k then consCell a b ((k, v) :: cells)
    else if a = k then consCell a b cells
    else (k, v) :: putByte cells a b

/-- A host's store of one byte (R63, R67): only the byte changes. `Mem` has a byte at readable addresses alone (R52), so a
store to another address changes nothing, and what is readable stays the platform's (R61; assumption 5). -/
def Memory.write (m : Memory) (a : Nat) (b : Byte) : Memory :=
  if m.readable a then { m with cells := putByte m.cells a b } else m

/-- The canonical form: addresses strictly rising, all readable (so below 2^64, R50), and no entry that an unlisted address
would read as. -/
abbrev Memory.wf (m : Memory) : Prop :=
  m.cells.Pairwise (fun x y => x.1 < y.1) ∧ ∀ x ∈ m.cells, m.readable x.1 = true ∧ x.2 ≠ unlistedByte

/-- The buffer of a command (R52, R54): RANGE if it passes the top of the address space, MEMORY if a byte of it is not
readable, else its bytes. An empty buffer never faults. -/
def fetchBuffer (m : Memory) (a n : Nat) : Except StatusCode (List Byte) :=
  if a + n > 2 ^ 64 then .error .range
  else
    match m.bytes a n with
    | none => .error .memory
    | some b => .ok b

/-- `LE(B)` (00_scope.md R13): the little-endian reading of a byte sequence, whatever the platform's native order
(20_memory.md R55). -/
def leNat : List Byte → Nat
  | [] => 0
  | b :: bs => b.toNat + 256 * leNat bs

/-! ### The host's side of a step -/

/-- An action of context `c` begins; the actions after it stay to come (R63). -/
def State.beginAction (s : State) (c : Nat) (rest : List HostAction) : State :=
  { s with cur := c, pending := rest }

/-- The write of a command word to CMD (R70). -/
def State.writeCmd (s : State) (w : Word32) : State :=
  s.modifyCur fun c => { c with cmd := w }

end Sys2Proof.Machine
end

