-- ==== Sys2Proof/Machine/Operands.lean ====
section
/-! DEFINITION. Operand and result assembly (30_encoding.md R73, R74). -/

namespace Sys2Proof.Machine

/-- The operand `a` = ADDR, an unsigned number (R73). -/
def Context.bufAddr (c : Context) : Nat := c.addr.value.toNat

/-- The operand `n` = LEN, an unsigned number (R73). -/
def Context.bufLen (c : Context) : Nat := c.len.value.toNat

/-- The incoming accumulator of a 32-bit command: CRCIN[31:0], whatever bits 63:32 hold (R73). -/
def Context.crcIn32 (c : Context) : Word32 := c.crcin.value.setWidth 32

/-- The incoming accumulator of a 64-bit command (R73). -/
def Context.crcIn64 (c : Context) : Word := c.crcin.value

/-- Whether every operand register of a buffer command holds a value (R251). All six buffer commands read all three
(10_state.md R23). -/
def Context.operandsHeld (c : Context) : Bool := c.addr.held && c.len.held && c.crcin.held

/-- A buffer command reads its operand registers: the refusal mark is set if one holds no value (R251; assumption 2). -/
def State.readOperands (s : State) (c : Context) : State := s.markUnless c.operandsHeld

/-- The result of a 32-bit command: `zext_64(out32)` (R74). -/
def result32 (v : Word32) : Word := v.setWidth 64

/-- The result of DETECT: 1 for true and 0 for false (R74). -/
def resultBool (v : Bool) : Word := if v then 1 else 0

/-- Ends a buffer command: with its fault, or with the result computed from its bytes (R221, R74). -/
def State.finish (s : State) (buf : Except StatusCode (List Byte)) (value : List Byte → Word) : State :=
  match buf with
  | .error code => s.raise code
  | .ok b => s.complete (value b)

end Sys2Proof.Machine
end

