-- ==== Sys2Proof/Machine/Detector.lean ====
section
/-! DEFINITION. The CPU Feature Detector (41_detect.md): the detected value, the detection procedure with its cache, and the
command DETECT. -/

namespace Sys2Proof.Machine

/-- `ACCEL_HW`, the detected value (R131): false when the query is unavailable (R132). -/
def accelHw (p : Platform) : Bool := p.queryOk && p.featA && p.featB && p.featC

/-- What `detect()` returns (R133): the cached value, or the platform's while CAP is UNKNOWN. -/
def detectValue (s : State) : Bool :=
  match s.cap with
  | .yes => true
  | .no => false
  | .unknown => accelHw s.platform

/-- The cached form of a detected value: TRUE or FALSE (R133). -/
def capOf (v : Bool) : Cap := if v then .yes else .no

/-- The state after `detect()` (R133): CAP is filled while it is UNKNOWN, and never changes after that (R135). -/
def detect (s : State) : State :=
  match s.cap with
  | .yes => s
  | .no => s
  | .unknown => { s with cap := capOf (accelHw s.platform) }

/-- DETECT (R136): it reads no operand register and no memory. -/
def execDetect (s : State) : Host.Outcome State Fault Refusal :=
  withContext s fun _ => (detect s).complete (resultBool (detectValue s))

end Sys2Proof.Machine
end

