-- ==== Sys2Proof/Machine/Poly.lean ====
section
/-! DEFINITION. The checksum functions (40_generic.md R100 to R104), and polynomials over GF(2) written as numbers
(00_scope.md R15). -/

namespace Sys2Proof.Machine

/-! ### The reference checksums -/

/-- `P32`, the CRC-32 polynomial in reflected form (R100). -/
def poly32 : Word32 := 0xEDB88320

/-- `P64`, the CRC-64/XZ polynomial in reflected form (R101). -/
def poly64 : Word := 0xC96C5795D7870F42

/-- `step_W(r)`, the bit step (R102), for the polynomial `p`. -/
def bitStep {w : Nat} (p r : BitVec w) : BitVec w :=
  (r >>> 1) ^^^ (if r.getLsbD 0 then p else 0)

/-- `step_W^k(r)`. -/
def bitSteps {w : Nat} (p : BitVec w) : Nat → BitVec w → BitVec w
  | 0, r => r
  | k + 1, r => bitSteps p k (bitStep p r)

/-- `U_W(r, B)`, the raw update (R103): each byte goes into the low 8 bits and is shifted out by 8 bit steps. -/
def rawUpdate {w : Nat} (p : BitVec w) (r : BitVec w) : List Byte → BitVec w
  | [] => r
  | b :: bs => rawUpdate p (bitSteps p 8 (r ^^^ b.setWidth w)) bs

/-- `U_32(r, B)` (R103). -/
def update32 (r : Word32) (b : List Byte) : Word32 := rawUpdate poly32 r b

/-- `U_64(r, B)` (R103). -/
def update64 (r : Word) (b : List Byte) : Word := rawUpdate poly64 r b

/-- `CRC_32(c, B)`, the external checksum (R104). -/
def crc32Of (c : Word32) (b : List Byte) : Word32 := ~~~ update32 (~~~ c) b

/-- `CRC_64(c, B)`, the external checksum (R104). -/
def crc64Of (c : Word) (b : List Byte) : Word := ~~~ update64 (~~~ c) b

/-! ### Polynomials over GF(2) -/

/-- The part of a carry-less product that bits 0 to `k - 1` of `b` make. -/
def clmulBits (a b : Nat) : Nat → Nat
  | 0 => 0
  | k + 1 => clmulBits a b k ^^^ (if b.testBit k then a <<< k else 0)

/-- `clmul(a, b)`, the exact carry-less product (R15). -/
def clmul (a b : Nat) : Nat := clmulBits a b (b.log2 + 1)

/-- `deg(a)`, the index of the highest set bit of `a ≠ 0` (R15). -/
def polyDeg (a : Nat) : Nat := a.log2

/-- Long division by `g` of degree `d`, from the quotient's bit `k - 1` down: quotient and remainder. -/
def polyDivBits (g d : Nat) : Nat → Nat → Nat × Nat
  | 0, a => (0, a)
  | k + 1, a =>
    if a.testBit (d + k) then
      let qr := polyDivBits g d k (a ^^^ (g <<< k))
      ((1 <<< k) ^^^ qr.1, qr.2)
    else polyDivBits g d k a

/-- `pmod(a, g)`, the remainder of polynomial division (R15), for `g ≠ 0`. -/
def pmod (a g : Nat) : Nat := (polyDivBits g (polyDeg g) (polyDeg a + 1 - polyDeg g) a).2

/-- `pdiv(a, g)`, the quotient of polynomial division (R15), for `g ≠ 0`. -/
def pdiv (a g : Nat) : Nat := (polyDivBits g (polyDeg g) (polyDeg a + 1 - polyDeg g) a).1

/-- `rev_N(v)`, the reversal of an N-bit value (R15): bit 0 goes to bit N - 1. -/
def revBits : Nat → Nat → Nat
  | 0, _ => 0
  | n + 1, v => ((v.testBit 0).toNat <<< n) ||| revBits n (v >>> 1)

/-- `m(B)` (40_generic.md R111): the first byte holds the highest degrees, and within a byte the least significant bit
does. -/
def messagePoly : List Byte → Nat
  | [] => 0
  | b :: bs => (revBits 8 b.toNat <<< (8 * bs.length)) ^^^ messagePoly bs

end Sys2Proof.Machine
end

