-- ==== Sys2Proof/Machine/Rom.lean ====
section
/-! DEFINITION. The two ROMs of CORE, which nothing writes (10_state.md R30, R31; 70_reset_and_hazards.md R252): the Table
Resource by the recurrence of 40_generic.md R106, and the folding constants of 42_accelerated.md R152. -/

namespace Sys2Proof.Machine

/-! ### The Table Resource -/

/-- `T_W[0][i]`: the byte value `i` shifted out through 8 bit steps (R106). -/
def tableRow0 {w : Nat} (p : BitVec w) (i : Byte) : BitVec w := rawUpdate p (i.setWidth w) [0]

/-- `T_W[k][i]` from `T_W[k-1][i]` (R106): one more byte of zeros goes through row 0. -/
def tableNext {w : Nat} (p t : BitVec w) : BitVec w := (t >>> 8) ^^^ tableRow0 p (t.setWidth 8)

/-- `T_W[k][i]` (R106). -/
def tableEntry {w : Nat} (p : BitVec w) : Nat → Byte → BitVec w
  | 0, i => tableRow0 p i
  | k + 1, i => tableNext p (tableEntry p k i)

/-- `T32[k][i]`: 8 rows of 256 entries (R30, R106). The physical layout is not visible (R114). -/
def table32 (k : Fin 8) (i : Byte) : Word32 := tableEntry poly32 k.val i

/-- `T64[k][i]`: 4 rows of 256 entries (R30, R106). -/
def table64 (k : Fin 4) (i : Byte) : Word := tableEntry poly64 k.val i

/-! ### The folding constants (R152) -/

/-- `G32`, the CRC-32 polynomial (R100). -/
def fold32G : Nat := 0x104C11DB7
/-- `K1 = pmod(x^192, G32)`. -/
def fold32K1 : Nat := 0xC5B9CD4C
/-- `K2 = pmod(x^128, G32)`. -/
def fold32K2 : Nat := 0xE8A45605
/-- `K3 = pmod(x^96, G32)`. -/
def fold32K3 : Nat := 0xF200AA66
/-- `K4 = pmod(x^64, G32)`. -/
def fold32K4 : Nat := 0x490D678D
/-- `MU = pdiv(x^64, G32)`. -/
def fold32Mu : Nat := 0x104D101DF

/-- `G64`, the CRC-64 polynomial (R101). -/
def fold64G : Nat := 0x142F0E1EBA9EA3693
/-- `K1 = pmod(x^192, G64)`. -/
def fold64K1 : Nat := 0x4EB938A7D257740E
/-- `K2 = pmod(x^128, G64)`. -/
def fold64K2 : Nat := 0x05F5C3C7EB52FAB6
/-- `K3 = pmod(x^128, G64)`, equal to `K2`. -/
def fold64K3 : Nat := 0x05F5C3C7EB52FAB6
/-- `MU = pdiv(x^128, G64)`. -/
def fold64Mu : Nat := 0x1578D29D06CC4F872

end Sys2Proof.Machine
end

