-- ==== Sys2Proof/Machine/Generic.lean ====
section
/-! DEFINITION. The Generic Computer (40_generic.md): the table-driven datapath and the commands GEN32 and GEN64. -/

namespace Sys2Proof.Machine

/-- The byte step of CRC-32 (R107). -/
def byteStep32 (r : Word32) (b : Byte) : Word32 := (r >>> 8) ^^^ table32 0 ((r ^^^ b.setWidth 32).setWidth 8)

/-- The byte step of CRC-64 (R107). -/
def byteStep64 (r : Word) (b : Byte) : Word := (r >>> 8) ^^^ table64 0 ((r ^^^ b.setWidth 64).setWidth 8)

/-- `chunk32`, the slice-by-8 chunk step (R108). -/
def chunk32 (r : Word32) (b0 b1 b2 b3 b4 b5 b6 b7 : Byte) : Word32 :=
  let w : Word32 := r ^^^ BitVec.ofNat 32 (leNat [b0, b1, b2, b3])
  table32 7 (w.extractLsb' 0 8) ^^^ table32 6 (w.extractLsb' 8 8) ^^^
    table32 5 (w.extractLsb' 16 8) ^^^ table32 4 (w.extractLsb' 24 8) ^^^
    table32 3 b4 ^^^ table32 2 b5 ^^^ table32 1 b6 ^^^ table32 0 b7

/-- `chunk64`, the slice-by-4 chunk step (R109). -/
def chunk64 (r : Word) (b0 b1 b2 b3 : Byte) : Word :=
  let w : Word := r ^^^ BitVec.ofNat 64 (leNat [b0, b1, b2, b3])
  table64 3 (w.extractLsb' 0 8) ^^^ table64 2 (w.extractLsb' 8 8) ^^^
    table64 1 (w.extractLsb' 16 8) ^^^ table64 0 (w.extractLsb' 24 8) ^^^ (w >>> 32)

/-- `G_32(r, B)` (R110): whole chunks of 8 from the first byte, then single bytes. -/
def generic32 (r : Word32) : List Byte → Word32
  | b0 :: b1 :: b2 :: b3 :: b4 :: b5 :: b6 :: b7 :: bs => generic32 (chunk32 r b0 b1 b2 b3 b4 b5 b6 b7) bs
  | bs => bs.foldl byteStep32 r

/-- `G_64(r, B)` (R110): whole chunks of 4 from the first byte, then single bytes. -/
def generic64 (r : Word) : List Byte → Word
  | b0 :: b1 :: b2 :: b3 :: bs => generic64 (chunk64 r b0 b1 b2 b3) bs
  | bs => bs.foldl byteStep64 r

/-- The generic route of CRC-32, external form in and out (R112, 43_dispatch.md R196). -/
def genericRoute32 (c : Word32) (b : List Byte) : Word32 := ~~~ generic32 (~~~ c) b

/-- The generic route of CRC-64, external form in and out (R113, R196). -/
def genericRoute64 (c : Word) (b : List Byte) : Word := ~~~ generic64 (~~~ c) b

/-- A Generic Computer command: the buffer's checks, then the result; no cell is read or written (R112, R113). -/
def genericCommand (s : State) (value : Context → List Byte → Word) : Host.Outcome State Fault Refusal :=
  withContext s fun c =>
    (s.readOperands c).finish (fetchBuffer s.mem c.bufAddr c.bufLen) (value c)

/-- GEN32 (R112). -/
def execGen32 (s : State) : Host.Outcome State Fault Refusal :=
  genericCommand s fun c b => result32 (genericRoute32 c.crcIn32 b)

/-- GEN64 (R113). -/
def execGen64 (s : State) : Host.Outcome State Fault Refusal :=
  genericCommand s fun c b => genericRoute64 c.crcIn64 b

end Sys2Proof.Machine
end

