-- ==== Sys2Proof/Machine/Accelerated.lean ====
section
/-! DEFINITION. The Accelerated Computer (42_accelerated.md): the CLMUL folding datapath, its preconditions, and the commands
FOLD32 and FOLD64. Polynomials are exact numbers (00_scope.md R15), so no product is cut to a register's width. -/

namespace Sys2Proof.Machine

/-- `lp(B16)`, the lane polynomial (R150): byte 0 holds the highest degrees. -/
def lanePoly (lane : List Byte) : Nat := revBits 128 (leNat lane)

/-- The first `n` lanes of 16 bytes (R150). -/
def lanesOf : Nat → List Byte → List (List Byte)
  | 0, _ => []
  | n + 1, b => b.take 16 :: lanesOf n (b.drop 16)

/-- The first lane with the raw register XORed into its first bytes (R153): byte `j` becomes `b_j ^ r[8j+7:8j]`; past the
register's width there is nothing left to XOR. -/
def xorRegister {w : Nat} (r : BitVec w) : List Byte → List Byte
  | [] => []
  | b :: bs => (b ^^^ r.setWidth 8) :: xorRegister (r >>> 8) bs

/-- One fold step (R154): the accumulator lane `acc` goes up one lane and takes in the next. -/
def foldStep (k1 k2 acc : Nat) (lane : List Byte) : Nat :=
  clmul (acc >>> 64) k1 ^^^ clmul (acc % 2 ^ 64) k2 ^^^ lanePoly lane

/-- The accumulator after all lanes (R153, R154); one lane runs no fold step. -/
def foldLanes {w : Nat} (k1 k2 : Nat) (r : BitVec w) : List (List Byte) → Nat
  | [] => 0
  | lane :: lanes => lanes.foldl (foldStep k1 k2) (lanePoly (xorRegister r lane))

/-- Final reduction, stage 1 (R156): 128 bits to 64 + W. -/
def reduceStage1 (w k3 acc : Nat) : Nat := clmul (acc >>> 64) k3 ^^^ ((acc % 2 ^ 64) <<< w)

/-- Final reduction, stage 2, of CRC-32 (R157): 96 bits to 64. -/
def reduceStage2 (k4 r1 : Nat) : Nat := clmul ((r1 >>> 64) % 2 ^ 32) k4 ^^^ (r1 % 2 ^ 64)

/-- Barrett reduction of a value below 2^(2W) to W bits (R158). -/
def barrett (w mu g r2 : Nat) : Nat :=
  let t1 := clmul (r2 >>> w) mu
  let t2 := clmul (t1 >>> w) g
  (r2 ^^^ t2) % 2 ^ w

/-- `F_32(r, B)` for a nonempty whole number of lanes (R153 to R160). -/
def fold32 (r : Word32) (b : List Byte) : Word32 :=
  let acc := foldLanes fold32K1 fold32K2 r (lanesOf (b.length / 16) b)
  let r2 := reduceStage2 fold32K4 (reduceStage1 32 fold32K3 acc)
  BitVec.ofNat 32 (revBits 32 (barrett 32 fold32Mu fold32G r2))

/-- `F_64(r, B)` for a nonempty whole number of lanes (R153 to R160); stage 2 is the identity (R157). -/
def fold64 (r : Word) (b : List Byte) : Word :=
  let acc := foldLanes fold64K1 fold64K2 r (lanesOf (b.length / 16) b)
  BitVec.ofNat 64 (revBits 64 (barrett 64 fold64Mu fold64G (reduceStage1 64 fold64K3 acc)))

/-- The preconditions of FOLD that come before `detect()`, in order (R161, checks 1 to 3). -/
def foldContract (a n : Nat) : Option StatusCode :=
  if a + n > 2 ^ 64 then some .range
  else if a % 16 ≠ 0 then some .misaligned
  else if n % 16 ≠ 0 ∨ n = 0 then some .length
  else none

/-- A FOLD command: the preconditions of R161 in order, with `detect()` at check 4, then the result (R162, R163). -/
def foldCommand (s : State) (value : Context → List Byte → Word) : Host.Outcome State Fault Refusal :=
  withContext s fun c =>
    let s := s.readOperands c
    match foldContract c.bufAddr c.bufLen with
    | some code => s.raise code
    | none =>
      if detectValue s then (detect s).finish (fetchBuffer s.mem c.bufAddr c.bufLen) (value c)
      else (detect s).raise .noAccel

/-- FOLD32 (R162). -/
def execFold32 (s : State) : Host.Outcome State Fault Refusal :=
  foldCommand s fun c b => result32 (~~~ fold32 (~~~ c.crcIn32) b)

/-- FOLD64 (R163). -/
def execFold64 (s : State) : Host.Outcome State Fault Refusal :=
  foldCommand s fun c b => ~~~ fold64 (~~~ c.crcIn64) b

end Sys2Proof.Machine
end

