-- ==== Sys2Proof/Machine/Dispatcher.lean ====
section
/-! DEFINITION. The Dispatcher (43_dispatch.md): backend resolution, the split of a buffer, the two routes, and the commands
CRC32 and CRC64. -/

namespace Sys2Proof.Machine

/-- The backend a detected value stands for (R190). -/
def backendOf (v : Bool) : Sel := if v then .accel else .generic

/-- What `resolve(W)` returns, from the cell `SEL_W` (R190). -/
def resolved (sel : Sel) (s : State) : Sel :=
  match sel with
  | .unresolved => backendOf (detectValue s)
  | .generic => .generic
  | .accel => .accel

/-- The state after `resolve(32)` (R190): SEL32, and through `detect()` CAP, is filled while SEL32 is UNRESOLVED. -/
def resolve32 (s : State) : State :=
  match s.sel32 with
  | .unresolved => { detect s with sel32 := backendOf (detectValue s) }
  | .generic => s
  | .accel => s

/-- The state after `resolve(64)` (R190). -/
def resolve64 (s : State) : State :=
  match s.sel64 with
  | .unresolved => { detect s with sel64 := backendOf (detectValue s) }
  | .generic => s
  | .accel => s

/-- The head length of the split (R193): `(0 - a) mod 2^64 & 15`. -/
def headLen (a : Nat) : Nat := ((0 - BitVec.ofNat 64 a) &&& 15).toNat

/-- The bulk length of the split (R193): whole lanes after the head. -/
def bulkLen (a n : Nat) : Nat := (n - headLen a) / 16 * 16

/-- The tail length of the split (R193). -/
def tailLen (a n : Nat) : Nat := n - headLen a - bulkLen a n

/-- The accelerated route of CRC-32 (R195): one complement in, head, bulk and tail on the raw register, one complement
out. -/
def acceleratedRoute32 (a : Nat) (c : Word32) (b : List Byte) : Word32 :=
  let h := headLen a
  let nb := bulkLen a b.length
  let r := generic32 (~~~ c) (b.take h)
  let r := fold32 r ((b.drop h).take nb)
  ~~~ generic32 r (b.drop (h + nb))

/-- The accelerated route of CRC-64 (R195). -/
def acceleratedRoute64 (a : Nat) (c : Word) (b : List Byte) : Word :=
  let h := headLen a
  let nb := bulkLen a b.length
  let r := generic64 (~~~ c) (b.take h)
  let r := fold64 r ((b.drop h).take nb)
  ~~~ generic64 r (b.drop (h + nb))

/-- The backend choice (R191, R192): a function of the resolved cell and the length alone. -/
def usesAccelerator (sel : Sel) (n : Nat) : Bool := sel = .accel && Config.accelMinLen ≤ n

/-- The route of CRC32 (R197). -/
def route32 (sel : Sel) (a : Nat) (c : Word32) (b : List Byte) : Word32 :=
  if usesAccelerator sel b.length then acceleratedRoute32 a c b else genericRoute32 c b

/-- The route of CRC64 (R198). -/
def route64 (sel : Sel) (a : Nat) (c : Word) (b : List Byte) : Word :=
  if usesAccelerator sel b.length then acceleratedRoute64 a c b else genericRoute64 c b

/-- A Dispatcher command: resolution first, before any operand check, so that it survives a fault (R197, R198,
60_exceptions.md R225); then the buffer's checks; then the route of the resolved backend. -/
def dispatchCommand (s : State) (sel : Sel) (resolve : State → State) (value : Sel → Context → List Byte → Word) :
    Host.Outcome State Fault Refusal :=
  withContext s fun c =>
    (resolve (s.readOperands c)).finish (fetchBuffer s.mem c.bufAddr c.bufLen) (value (resolved sel s) c)

/-- CRC32 (R197). -/
def execCrc32 (s : State) : Host.Outcome State Fault Refusal :=
  dispatchCommand s s.sel32 resolve32 fun sel c b => result32 (route32 sel c.bufAddr c.crcIn32 b)

/-- CRC64 (R198). -/
def execCrc64 (s : State) : Host.Outcome State Fault Refusal :=
  dispatchCommand s s.sel64 resolve64 fun sel c b => route64 sel c.bufAddr c.crcIn64 b

end Sys2Proof.Machine
end

