-- ==== Sys2Proof/Machine/Dispatch.lean ====
section
/-! DEFINITION. What each command does: one arm per constructor of Instr (30_encoding.md R72). -/

namespace Sys2Proof.Machine

def exec (i : Instr) (s : State) : Host.Outcome State Fault Refusal :=
  match i with
  | .crc32 => Sys2Proof.Machine.execCrc32 s
  | .crc64 => Sys2Proof.Machine.execCrc64 s
  | .gen32 => Sys2Proof.Machine.execGen32 s
  | .gen64 => Sys2Proof.Machine.execGen64 s
  | .fold32 => Sys2Proof.Machine.execFold32 s
  | .fold64 => Sys2Proof.Machine.execFold64 s
  | .detect => Sys2Proof.Machine.execDetect s

end Sys2Proof.Machine
end

