-- ==== Sys2Proof/Machine/Port.lean ====
section
/-! DEFINITION. The port operations of a host context (30_encoding.md R80, R81) and its stores to memory (20_memory.md R63,
R67): the host's own actions, which cause no CORE step. -/

namespace Sys2Proof.Machine

/-- `set r, v` on a context's registers (R80). -/
def Context.setOperand (c : Context) (r : OperandReg) (v : Word) : Context :=
  match r with
  | .addr => { c with addr := .written v }
  | .len => { c with len := .written v }
  | .crcin => { c with crcin := .written v }

/-- The value a `read` returns (R80, R22); STATUS is zero-extended. -/
def Context.readValue (c : Context) : ReadReg → Word
  | .addr => c.addr.value
  | .len => c.len.value
  | .crcin => c.crcin.value
  | .result => c.result.value
  | .status => c.status.setWidth 64

/-- Whether a readable register holds a value (R251); STATUS always does (R36). -/
def Context.readHeld (c : Context) : ReadReg → Bool
  | .addr => c.addr.held
  | .len => c.len.held
  | .crcin => c.crcin.held
  | .result => c.result.held
  | .status => true

/-- `set r, v` (R80): only the named register of the issuing context changes (R81). -/
def portSet (r : OperandReg) (v : Word) (s : State) : Host.Outcome State Fault Refusal :=
  withContext s fun _ => s.modifyCur fun c => c.setOperand r v

/-- `mov CRCIN, RESULT` (R80); the refusal mark is set if RESULT holds no value (R251; assumption 2). -/
def portMov (s : State) : Host.Outcome State Fault Refusal :=
  withContext s fun c => (s.markUnless c.result.held).modifyCur fun c => { c with crcin := .written c.result.value }

/-- `read r` (R80): the register's value goes to the host; the refusal mark is set if it holds none (R251; assumptions 2
and 9). -/
def portRead (r : ReadReg) (s : State) : Host.Outcome State Fault Refusal :=
  withContext s fun c =>
    { s.markUnless (c.readHeld r) with returned := { ctx := s.cur, reg := r, value := c.readValue r } :: s.returned }

/-- A host's store of one byte (R63, R67). DESIGN CHOICE: the spec does not say how many bytes one host write changes; here it
is one, so a wider write is several actions, and an action of another context may stand between them (assumption 16). -/
def hostStore (a : Word) (b : Byte) (s : State) : Host.Outcome State Fault Refusal :=
  withContext s fun _ => { s with mem := s.mem.write a.toNat b }

end Sys2Proof.Machine
end

