-- ==== Sys2Proof/Machine/Issue.lean ====
section
/-! DEFINITION. Issuing a command by a write to CMD (30_encoding.md R70, R78), and what one action of a host context does. -/

namespace Sys2Proof.Machine

/-- The write of a command word to CMD: the command runs at once, in the same step (R70); a word that does not decode raises
its fault (R78). -/
def issue (w : Word32) (s : State) : Host.Outcome State Fault Refusal :=
  match decode w with
  | .ok i => exec i (s.writeCmd w)
  | .error f => raiseDecodeFault f (s.writeCmd w)

/-- One action of the issuing context. -/
def portAction (op : PortOp) (s : State) : Host.Outcome State Fault Refusal :=
  match op with
  | .set r v => portSet r v s
  | .movCrcinResult => portMov s
  | .read r => portRead r s
  | .issue w => issue w s
  | .store a b => hostStore a b s

/-- The next host action in the total order (20_memory.md R63), taken whole (10_state.md R21). With none to come CORE does no
work and keeps its state (60_exceptions.md R237; assumption 1). -/
def nextAction (s : State) : Host.Outcome State Fault Refusal :=
  match s.pending with
  | [] => .next s
  | act :: rest => portAction act.op (s.beginAction act.ctx rest)

/-- The actions `ops` of context `c`, put behind the actions to come (R63). -/
def State.load (s : State) (c : Nat) (ops : List PortOp) : State :=
  { s with pending := s.pending ++ ops.map fun op => { ctx := c, op := op } }

end Sys2Proof.Machine
end

