-- ==== Sys2Proof/Machine/Step.lean ====
section
/-! DEFINITION. One step of the machine, and where the host places an instruction for it. -/

namespace Sys2Proof.Machine

/-- One step (10_state.md R21, 20_memory.md R63): the next host action, whole. -/
def step (s : State) : Host.Outcome State Fault Refusal := nextAction s

/-- The state in which the next step issues the command word `w` from the present context: CORE fetches nothing (10_state.md
R24), so the word is put first among the host actions to come (assumption 1). -/
def State.withFetchWord (s : State) (nbits w : Nat) : State :=
  { s with pending := { ctx := s.cur, op := .issue (BitVec.ofNat 32 (w % 2 ^ nbits)) } :: s.pending }

end Sys2Proof.Machine
end

