-- ==== Sys2Proof/Machine/Asm.lean ====
section
/-! DEFINITION. The text of the assembler (30_encoding.md R79, R80, R82): words, numbers in C notation, comments, and lines as
port operations. -/

namespace Sys2Proof.Machine

/-- All commands, in the order of R72. -/
def allInstrs : List Instr := [.crc32, .crc64, .gen32, .gen64, .fold32, .fold64, .detect]

/-- The mnemonic of a command, in lower case (R72, R79). -/
def mnemonicOf : Instr → String
  | .crc32 => "crc32"
  | .crc64 => "crc64"
  | .gen32 => "gen32"
  | .gen64 => "gen64"
  | .fold32 => "fold32"
  | .fold64 => "fold64"
  | .detect => "detect"

/-- The name of a port register (10_state.md R22). -/
def regText : RegName → String
  | .cmd => "CMD"
  | .addr => "ADDR"
  | .len => "LEN"
  | .crcin => "CRCIN"
  | .result => "RESULT"
  | .status => "STATUS"

/-- A finished word, if there is one; `acc` holds its characters, the last first. -/
def flushWord (acc : List Char) : List (List Char) := if acc.isEmpty then [] else [acc.reverse]

/-- The words and commas of a line; a semicolon begins a comment (R79). -/
def lineWords : List Char → List Char → List (List Char)
  | acc, [] => flushWord acc
  | acc, ch :: rest =>
    if ch = ';' then flushWord acc
    else if ch = ' ' ∨ ch = '\t' ∨ ch = '\r' then flushWord acc ++ lineWords [] rest
    else if ch = ',' then flushWord acc ++ [','] :: lineWords [] rest
    else lineWords (ch :: acc) rest

/-- The value of a digit in base ten. -/
def decDigit (ch : Char) : Option Nat :=
  if '0'.toNat ≤ ch.toNat ∧ ch.toNat ≤ '9'.toNat then some (ch.toNat - '0'.toNat) else none

/-- The value of a digit in base sixteen, in either case. -/
def hexDigit (ch : Char) : Option Nat :=
  if '0'.toNat ≤ ch.toNat ∧ ch.toNat ≤ '9'.toNat then some (ch.toNat - '0'.toNat)
  else if 'a'.toNat ≤ ch.toNat ∧ ch.toNat ≤ 'f'.toNat then some (ch.toNat - 'a'.toNat + 10)
  else if 'A'.toNat ≤ ch.toNat ∧ ch.toNat ≤ 'F'.toNat then some (ch.toNat - 'A'.toNat + 10)
  else none

/-- The number a list of digits stands for, after the value `acc` of the digits before. -/
def digitsValue (base : Nat) (digit : Char → Option Nat) : Nat → List Char → Option Nat
  | acc, [] => some acc
  | acc, ch :: rest =>
    match digit ch with
    | none => none
    | some d => digitsValue base digit (acc * base + d) rest

/-- A number in C notation: `0x` and hexadecimal digits, or decimal digits (R79). DESIGN CHOICE: digits after a leading zero,
as in `010`, are decimal; C reads them as octal, which R79 does not name (assumption 12). -/
def numberOf : List Char → Option Nat
  | [] => none
  | ['0', 'x'] => none
  | '0' :: 'x' :: rest => digitsValue 16 hexDigit 0 rest
  | text => digitsValue 10 decDigit 0 text

/-- A number that fits in `n` bits (R79, R80). -/
def valueOf (n : Nat) (text : List Char) : Option (BitVec n) :=
  match numberOf text with
  | none => none
  | some v => if v < 2 ^ n then some (BitVec.ofNat n v) else none

/-- The command with a mnemonic. -/
def commandNamed (text : List Char) : Option Instr := allInstrs.find? fun i => text = (mnemonicOf i).toList

/-- The command of the form `m.new` or `m.chain` (R82). -/
def commandWithSuffix (ending : String) (text : List Char) : Option Instr :=
  allInstrs.find? fun i => text = (mnemonicOf i).toList ++ ending.toList

/-- The port register with a name. -/
def regNamed (text : List Char) : Option RegName :=
  [RegName.cmd, .addr, .len, .crcin, .result, .status].find? fun r => text = (regText r).toList

/-- A line from its words (R79, R80, R82). -/
def lineOfWords : List (List Char) → Option AsmLine
  | [m] => (commandNamed m).map .command
  | [op, x] =>
    if op = ".word".toList then (valueOf 32 x).map .word
    else if op = "read".toList then (regNamed x).map .read
    else none
  | [op, x, [','], y] =>
    if op = "set".toList then do return .set (← regNamed x) (← valueOf 64 y)
    else if op = "mov".toList then do return .mov (← regNamed x) (← regNamed y)
    else if (commandWithSuffix ".new" op).isSome then
      do return .fresh (← commandWithSuffix ".new" op) (← valueOf 64 x) (← valueOf 64 y)
    else do return .chain (← commandWithSuffix ".chain" op) (← valueOf 64 x) (← valueOf 64 y)
  | [m, a, [','], n, [','], c] => do return .call (← commandNamed m) (← valueOf 64 a) (← valueOf 64 n) (← valueOf 64 c)
  | _ => none

/-- The port operations of one line of text; a blank line or a comment has none (R79). -/
def assembleLine (text : List Char) : Option (List PortOp) :=
  match lineWords [] text with
  | [] => some []
  | words =>
    match lineOfWords words with
    | none => none
    | some l => if l.wf then assemble l else none

/-- The lines of a text; `acc` holds the present line's characters, the last first. -/
def linesOf : List Char → List Char → List (List Char)
  | acc, [] => [acc.reverse]
  | acc, ch :: rest => if ch = '\n' then acc.reverse :: linesOf [] rest else linesOf (ch :: acc) rest

/-- The port operations of a program text, line by line (R79 to R82); `none` if a line is refused. -/
def assembleText (text : String) : Option (List PortOp) :=
  ((linesOf [] text.toList).mapM assembleLine).map List.flatten

end Sys2Proof.Machine
end

