-- ==== Sys2Proof/Safety.lean ====
section
/-! DEFINITION. What counts as a safe state of a run, in the terms claims use: no recorded fault (60_exceptions.md R227) and
no refused step (70_reset_and_hazards.md R251); and the invariants of the machine. -/

namespace Sys2Proof.Machine

/-- The premise of R227: `STATUS.FAULT = 0` for every context. -/
def State.noFault (s : State) : Bool := s.contexts.all fun c => !statusFault c.status

/-- A run that a claim may cover: no fault was recorded (R227) and no step was refused (R251). -/
def State.clean (s : State) : Bool := s.noFault && !s.refusalMark

/-- The buffer at `a` is the byte sequence `b`: every byte of it is readable (20_memory.md R52). -/
def Memory.holds (m : Memory) (a : Nat) (b : List Byte) : Prop :=
  ∀ (i : Nat) (h : i < b.length), m.read (a + i) = some b[i]

/-- Some byte of `a .. a + n - 1` is not readable (R52). -/
def Memory.unreadableIn (m : Memory) (a n : Nat) : Prop := ∃ i, i < n ∧ m.read (a + i) = none

/-- CAP, once known, is the detected value of the platform (10_state.md R27, 41_detect.md R133, R135). -/
def State.capAgrees (s : State) : Prop :=
  s.cap ≠ .unknown → (s.cap = .yes ↔ accelHw s.platform = true)

/-- A resolved backend choice agrees with CAP (43_dispatch.md R190). -/
def selAgrees (sel : Sel) (cap : Cap) : Prop :=
  sel ≠ .unresolved → cap ≠ .unknown ∧ (sel = .accel ↔ cap = .yes)

/-- The machine invariant: memory is in its canonical form; there is a context (R20) and every STATUS is legal (R26, R220);
CAP agrees with the platform (R135) and the cached choices with CAP (R190). -/
structure State.Inv (s : State) : Prop where
  memWf : s.mem.wf
  someContext : s.contexts ≠ []
  statusLegal : ∀ c ∈ s.contexts, statusLegal c.status = true
  capAgrees : s.capAgrees
  sel32Agrees : selAgrees s.sel32 s.cap
  sel64Agrees : selAgrees s.sel64 s.cap

end Sys2Proof.Machine
end

