-- ==== Sys2Proof/Certificates/Slice0/Obligations.lean ====
section
/-! DEFINITION. The statements for the provers. They come from the numbered rules of spec/; `Sys2Proof.Expected` writes out the
states, buffers and sets the rules speak of, in terms of the fields of State. -/

open Sys2Proof Sys2Proof.Machine

namespace Sys2Proof.Expected

/-- The state after the issuing context `c` has completed a command with the value `v` (30_encoding.md R74, 10_state.md R26):
RESULT holds `v`, CODE is OK, FAULT is as before. -/
def completed (s : State) (c : Context) (v : Word) : State :=
  { s with
    contexts := s.contexts.set s.cur
      { c with result := { value := v, held := true }, status := packStatus (statusFault c.status) .ok } }

/-- The state after the issuing context `c` has taken a fault (60_exceptions.md R221): CODE is the code, FAULT is 1. -/
def faulted (s : State) (c : Context) (code : StatusCode) : State :=
  { s with contexts := s.contexts.set s.cur { c with status := packStatus true code } }

/-- A buffer command reads the operand registers of `c`: the mark of 70_reset_and_hazards.md R251 is set if one of them holds
no value (the model's choice of assumption 2: the run goes on). -/
def operandsRead (s : State) (c : Context) : State :=
  { s with refusalMark := s.refusalMark || !(c.addr.held && c.len.held && c.crcin.held) }

/-- What `detect()` returns (41_detect.md R131, R133). -/
def detected (s : State) : Bool :=
  if s.cap = .unknown then s.platform.queryOk && s.platform.featA && s.platform.featB && s.platform.featC
  else s.cap = .yes

/-- CAP after `detect()` (R133). -/
def capAfter (s : State) : Cap :=
  if s.cap = .unknown then (if detected s then .yes else .no) else s.cap

/-- SEL_W after `resolve(W)` (43_dispatch.md R190). -/
def selAfter (sel : Sel) (s : State) : Sel :=
  if sel = .unresolved then (if detected s then .accel else .generic) else sel

/-- CAP after `resolve(W)` (R190): filled only on the way to filling SEL_W. -/
def capAfterResolve (sel : Sel) (s : State) : Cap := if sel = .unresolved then capAfter s else s.cap

/-- The seven assigned values of OPC (30_encoding.md R72). -/
def assigned : List Word32 := [0x01, 0x02, 0x11, 0x12, 0x21, 0x22, 0x30]

/-- The values of OPC whose commands read a buffer (R73). -/
def bufferOpcs : List Word32 := [0x01, 0x02, 0x11, 0x12, 0x21, 0x22]

/-- The values of OPC of FOLD32 and FOLD64 (R72). -/
def foldOpcs : List Word32 := [0x21, 0x22]

/-- Whether a fault applies to the command word `w` of the context `c` (60_exceptions.md R220), whatever other faults do. -/
def applies (s : State) (c : Context) (w : Word32) : StatusCode → Prop
  | .ok => False
  | .illegalOpcode => w &&& 0xFF ∉ assigned
  | .reservedBits => w >>> 8 ≠ 0
  | .range => w &&& 0xFF ∈ bufferOpcs ∧ c.addr.value.toNat + c.len.value.toNat > 2 ^ 64
  | .misaligned => w &&& 0xFF ∈ foldOpcs ∧ c.addr.value.toNat % 16 ≠ 0
  | .length => w &&& 0xFF ∈ foldOpcs ∧ (c.len.value.toNat % 16 ≠ 0 ∨ c.len.value.toNat = 0)
  | .noAccel => w &&& 0xFF ∈ foldOpcs ∧ detected s = false
  | .memory => w &&& 0xFF ∈ bufferOpcs ∧ s.mem.unreadableIn c.addr.value.toNat c.len.value.toNat

/-- The table of 60_exceptions.md R223: which command raises which fault. -/
def mayRaise : Instr → StatusCode → Bool
  | _, .ok => false
  | _, .illegalOpcode => false
  | _, .reservedBits => true
  | .detect, _ => false
  | _, .range => true
  | _, .memory => true
  | .fold32, _ => true
  | .fold64, _ => true
  | _, _ => false

/-- Some context issues the word `w` in some state, and its STATUS.CODE is then `code`. -/
def canGive (w : Word32) (code : StatusCode) : Prop :=
  ∃ s t c, issue w s = .next t ∧ t.contexts[t.cur]? = some c ∧ statusCode c.status = code.number

/-- The command `i`, in the state `s`, reads the bytes `b` at `a` with `crcin` in CRCIN, completes with OK, and leaves `r` in
RESULT. -/
def CompletesWith (i : Instr) (s : State) (a : Nat) (b : List Byte) (crcin r : Word) : Prop :=
  ∃ t c d, s.contexts[s.cur]? = some c ∧ c.addr.value.toNat = a ∧ c.len.value.toNat = b.length ∧
    c.crcin.value = crcin ∧ s.mem.holds a b ∧ exec i s = .next t ∧ t.contexts[s.cur]? = some d ∧
    statusCode d.status = 0 ∧ d.result.value = r

/-- RESULT and STATUS of the issuing context. -/
def outcome (s : State) : Option (HeldReg × Word32) := (s.contexts[s.cur]?).map fun c => (c.result, c.status)

/-- `XOR over j of p_j * x^(128 (i - j))` for the polynomials `p_0 .. p_i` (42_accelerated.md R155). -/
def laneSum : List Nat → Nat
  | [] => 0
  | p :: ps => (p <<< (128 * ps.length)) ^^^ laneSum ps

/-- `B'` of law 4 (40_generic.md R105): byte `j` below `W/8` becomes `b_j ^ r[8j+7:8j]`. -/
def withRegister {w : Nat} (r : BitVec w) (b : List Byte) : List Byte :=
  b.mapIdx fun j x => if j < w / 8 then x ^^^ r.extractLsb' (8 * j) 8 else x

/-- The bytes of the string "123456789" (R105). -/
def checkString : List Byte := [0x31, 0x32, 0x33, 0x34, 0x35, 0x36, 0x37, 0x38, 0x39]

/-- A state with another set of shared cells. -/
def withCells (s : State) (cap : Cap) (sel32 sel64 : Sel) : State :=
  { s with cap := cap, sel32 := sel32, sel64 := sel64 }

/-- A state with another native byte order. -/
def withOrder (s : State) (o : ByteOrder) : State := { s with platform := { s.platform with nativeOrder := o } }

/-- A state in which context `d` has the registers `x`. -/
def withRegisters (s : State) (d : Nat) (x : Context) : State := { s with contexts := s.contexts.set d x }

end Sys2Proof.Expected

open Sys2Proof.Expected

/-! ### Encoding and the step -/

/-- R72: each command has its one word, and no other word decodes to it. -/
def Obligations.EachCommandIsSelectedByItsOneWord : Prop :=
  encode .crc32 = 0x00000001 ∧ encode .crc64 = 0x00000002 ∧ encode .gen32 = 0x00000011 ∧
  encode .gen64 = 0x00000012 ∧ encode .fold32 = 0x00000021 ∧ encode .fold64 = 0x00000022 ∧
  encode .detect = 0x00000030 ∧
  ∀ (w : Word32) (i : Instr), decode w = .ok i ↔ w = encode i

/-- The words of the opcode table, written out from R70 and R72, decode to their commands; so do a few that decode to none
(30_encoding.md R75 to R77). -/
def Obligations.WrittenOutWordsDecodeAsTheTableSays : Prop :=
  decode 0b00000000000000000000000000000001 = .ok .crc32 ∧
  decode 0b00000000000000000000000000010010 = .ok .gen64 ∧
  decode 0b00000000000000000000000000100001 = .ok .fold32 ∧
  decode 0b00000000000000000000000000110000 = .ok .detect ∧
  decode 0x00000000 = .error .illegalOpcode ∧ decode 0x000000F1 = .error .illegalOpcode ∧
  decode 0xFFFFFFFF = .error .illegalOpcode ∧ decode 0x00000101 = .error .reservedBits ∧
  decode 0x80000030 = .error .reservedBits

/-- R70: a write of a word that decodes runs its command in the same step, with CMD written and the action taken off the
order; nothing else happens around it. -/
def Obligations.StepRunsTheDecodedCommand : Prop :=
  ∀ (s : State) (c : Nat) (w : Word32) (rest : List HostAction) (i : Instr),
    s.pending = { ctx := c, op := .issue w } :: rest → decode w = .ok i →
    step s = exec i { s with
      cur := c, pending := rest, contexts := s.contexts.modify c fun x => { x with cmd := w } }

/-- An unassigned OPC raises ILLEGAL_OPCODE whatever RSV is, and an assigned one with RSV ≠ 0 raises RESERVED_BITS (R75, R76);
nothing but CMD, STATUS and the order of actions changes. That CMD then holds the word is the model's reading (assumption 11,
DEDUCED), not the spec's. -/
def Obligations.UndecodableWordRaisesItsFault : Prop :=
  ∀ (s : State) (c : Nat) (x : Context) (w : Word32) (rest : List HostAction),
    s.pending = { ctx := c, op := .issue w } :: rest → s.contexts[c]? = some x →
    (w &&& 0xFF ∉ assigned →
      step s = .next { s with
        cur := c, pending := rest,
        contexts := s.contexts.set c { x with cmd := w, status := packStatus true .illegalOpcode } }) ∧
    (w &&& 0xFF ∈ assigned → w >>> 8 ≠ 0 →
      step s = .next { s with
        cur := c, pending := rest,
        contexts := s.contexts.set c { x with cmd := w, status := packStatus true .reservedBits } })

/-- R237, with the model's choice of assumption 1: with no host action to come the machine keeps its state. -/
def Obligations.IdleMachineKeepsItsState : Prop :=
  ∀ s : State, s.pending = [] → step s = .next s

/-- The model's choice of assumption 10: there is no context at or above NCTX, so its actions stop by name. -/
def Obligations.ActionOfAnAbsentContextStops : Prop :=
  ∀ s : State, s.contexts[s.cur]? = none →
    (∀ i : Instr, exec i s = .fault .noSuchContext) ∧ ∀ op : PortOp, portAction op s = .fault .noSuchContext

/-! ### Detector -/

/-- R131, R133: the detected value, and the three cases of the detection procedure. -/
def Obligations.DetectionProcedureFillsTheCacheOnce : Prop :=
  ∀ s : State,
    accelHw s.platform = (s.platform.queryOk && s.platform.featA && s.platform.featB && s.platform.featC) ∧
    (s.cap = .yes → detectValue s = true ∧ detect s = s) ∧
    (s.cap = .no → detectValue s = false ∧ detect s = s) ∧
    (s.cap = .unknown → detectValue s = accelHw s.platform ∧
      detect s = { s with cap := if accelHw s.platform then .yes else .no })

/-- DETECT completes in every context: RESULT is 1 or 0, CAP is filled, and nothing else changes (R136). -/
def Obligations.DetectReturnsTheDetectedValue : Prop :=
  ∀ (s : State) (c : Context), s.contexts[s.cur]? = some c →
    exec .detect s = .next (completed { s with cap := capAfter s } c (if detected s then 1 else 0))

/-- R135: once CAP is known, it keeps its value and every later `detect()` returns the same Boolean, over any run. -/
def Obligations.CapabilityCacheIsStable : Prop :=
  ∀ (k : Nat) (s t : State), s.cap ≠ .unknown → Sys2Proof.core.run k s = .next t →
    t.cap = s.cap ∧ detectValue t = detectValue s

/-- R134: two first DETECTs of two contexts, in either order, leave the same registers and the same CAP, and both return the
detected value. -/
def Obligations.RacingDetectsAgree : Prop :=
  ∀ (s : State) (c d : Nat) (x y : Context), c ≠ d → s.contexts[c]? = some x → s.contexts[d]? = some y →
    ∃ t u, Sys2Proof.core.run 2 { s with pending := [⟨c, .issue (encode .detect)⟩, ⟨d, .issue (encode .detect)⟩] } = .next t ∧
      Sys2Proof.core.run 2 { s with pending := [⟨d, .issue (encode .detect)⟩, ⟨c, .issue (encode .detect)⟩] } = .next u ∧
      t.contexts = u.contexts ∧ t.cap = capAfter s ∧ u.cap = capAfter s ∧
      ∀ e, e = c ∨ e = d → ∃ z, t.contexts[e]? = some z ∧ z.result.value = if detected s then 1 else 0

/-! ### The checksum functions and the Generic Computer -/

/-- R105: the five laws of the raw update and the external checksum, at both widths. -/
def Obligations.RawUpdateAndChecksumLaws : Prop :=
  (∀ (r : Word32), update32 r [] = r ∧ crc32Of r [] = r) ∧
  (∀ (r : Word), update64 r [] = r ∧ crc64Of r [] = r) ∧
  (∀ (r : Word32) (b c : List Byte), update32 r (b ++ c) = update32 (update32 r b) c ∧
    crc32Of r (b ++ c) = crc32Of (crc32Of r b) c) ∧
  (∀ (r : Word) (b c : List Byte), update64 r (b ++ c) = update64 (update64 r b) c ∧
    crc64Of r (b ++ c) = crc64Of (crc64Of r b) c) ∧
  (∀ (r q : Word32) (b c : List Byte), b.length = c.length →
    update32 (r ^^^ q) (List.zipWith (· ^^^ ·) b c) = update32 r b ^^^ update32 q c) ∧
  (∀ (r q : Word) (b c : List Byte), b.length = c.length →
    update64 (r ^^^ q) (List.zipWith (· ^^^ ·) b c) = update64 r b ^^^ update64 q c) ∧
  (∀ (r : Word32) (b : List Byte), 4 ≤ b.length → update32 r b = update32 0 (withRegister r b)) ∧
  (∀ (r : Word) (b : List Byte), 8 ≤ b.length → update64 r b = update64 0 (withRegister r b)) ∧
  crc32Of 0 checkString = 0xCBF43926 ∧ crc64Of 0 checkString = 0x995DC9BBDF1939FA

/-- R106: the contents of both tables: row 0, the recurrence, the closed form, and the sample entries. -/
def Obligations.TableEntriesAreByteContributions : Prop :=
  (∀ i : Byte, table32 0 i = update32 (i.setWidth 32) [0] ∧ table32 0 i = bitSteps poly32 8 (i.setWidth 32) ∧
    table64 0 i = update64 (i.setWidth 64) [0] ∧ table64 0 i = bitSteps poly64 8 (i.setWidth 64)) ∧
  (∀ (k : Fin 7) (i : Byte), table32 k.succ i =
    (table32 k.castSucc i >>> 8) ^^^ table32 0 ((table32 k.castSucc i).setWidth 8)) ∧
  (∀ (k : Fin 3) (i : Byte), table64 k.succ i =
    (table64 k.castSucc i >>> 8) ^^^ table64 0 ((table64 k.castSucc i).setWidth 8)) ∧
  (∀ (k : Fin 8) (i : Byte), table32 k i = update32 (i.setWidth 32) (List.replicate (k.val + 1) 0)) ∧
  (∀ (k : Fin 4) (i : Byte), table64 k i = update64 (i.setWidth 64) (List.replicate (k.val + 1) 0)) ∧
  table32 0 1 = 0x77073096 ∧ table32 0 0x80 = 0xEDB88320 ∧
  table64 0 1 = 0xB32E4CBE03A75F6F ∧ table64 0 0x80 = 0xC96C5795D7870F42

/-- R107: the byte step, by its formula and as the raw update of one byte. -/
def Obligations.ByteStepIsTheRawUpdateOfOneByte : Prop :=
  (∀ (r : Word32) (b : Byte),
    byteStep32 r b = (r >>> 8) ^^^ table32 0 (((r ^^^ b.setWidth 32) &&& 0xFF).setWidth 8) ∧
    byteStep32 r b = update32 r [b]) ∧
  (∀ (r : Word) (b : Byte),
    byteStep64 r b = (r >>> 8) ^^^ table64 0 (((r ^^^ b.setWidth 64) &&& 0xFF).setWidth 8) ∧
    byteStep64 r b = update64 r [b])

/-- R108: slice-by-8, by its formula and as the raw update of eight bytes. -/
def Obligations.SliceByEightIsTheRawUpdateOfEightBytes : Prop :=
  ∀ (r w : Word32) (b0 b1 b2 b3 b4 b5 b6 b7 : Byte), w = r ^^^ (b3 ++ b2 ++ b1 ++ b0 : BitVec (8 + 8 + 8 + 8)) →
    chunk32 r b0 b1 b2 b3 b4 b5 b6 b7 =
      table32 7 (w.extractLsb' 0 8) ^^^ table32 6 (w.extractLsb' 8 8) ^^^ table32 5 (w.extractLsb' 16 8) ^^^
      table32 4 (w.extractLsb' 24 8) ^^^ table32 3 b4 ^^^ table32 2 b5 ^^^ table32 1 b6 ^^^ table32 0 b7 ∧
    chunk32 r b0 b1 b2 b3 b4 b5 b6 b7 = update32 r [b0, b1, b2, b3, b4, b5, b6, b7]

/-- R109: slice-by-4, by its formula and as the raw update of four bytes. -/
def Obligations.SliceByFourIsTheRawUpdateOfFourBytes : Prop :=
  ∀ (r w : Word) (b0 b1 b2 b3 : Byte), w = r ^^^ (b3 ++ b2 ++ b1 ++ b0 : BitVec (8 + 8 + 8 + 8)).setWidth 64 →
    chunk64 r b0 b1 b2 b3 =
      table64 3 (w.extractLsb' 0 8) ^^^ table64 2 (w.extractLsb' 8 8) ^^^ table64 1 (w.extractLsb' 16 8) ^^^
      table64 0 (w.extractLsb' 24 8) ^^^ (w >>> 32) ∧
    chunk64 r b0 b1 b2 b3 = update64 r [b0, b1, b2, b3]

/-- R110: the schedule of the Generic Computer, and its equality with the raw update for every register and buffer. -/
def Obligations.GenericDatapathIsTheRawUpdate : Prop :=
  (∀ (r : Word32) (b0 b1 b2 b3 b4 b5 b6 b7 : Byte) (b : List Byte),
    generic32 r (b0 :: b1 :: b2 :: b3 :: b4 :: b5 :: b6 :: b7 :: b) =
      generic32 (chunk32 r b0 b1 b2 b3 b4 b5 b6 b7) b) ∧
  (∀ (r : Word32) (b : List Byte), b.length < 8 → generic32 r b = b.foldl byteStep32 r) ∧
  (∀ (r : Word) (b0 b1 b2 b3 : Byte) (b : List Byte),
    generic64 r (b0 :: b1 :: b2 :: b3 :: b) = generic64 (chunk64 r b0 b1 b2 b3) b) ∧
  (∀ (r : Word) (b : List Byte), b.length < 4 → generic64 r b = b.foldl byteStep64 r) ∧
  (∀ (r : Word32) (b : List Byte), generic32 r b = update32 r b) ∧
  ∀ (r : Word) (b : List Byte), generic64 r b = update64 r b

/-- R111: the raw update as a remainder of polynomials. -/
def Obligations.RawUpdateIsAPolynomialRemainder : Prop :=
  (∀ (r : Word32) (b : List Byte), (update32 r b).toNat =
    revBits 32 (pmod ((revBits 32 r.toNat <<< (8 * b.length)) ^^^ (messagePoly b <<< 32)) 0x104C11DB7)) ∧
  ∀ (r : Word) (b : List Byte), (update64 r b).toNat =
    revBits 64 (pmod ((revBits 64 r.toNat <<< (8 * b.length)) ^^^ (messagePoly b <<< 64)) 0x142F0E1EBA9EA3693)

/-- GEN32 on every operand: RANGE, then MEMORY, else CRC_32 of the buffer; no cell changes (R112, by R110). That the run goes
on from an operand register without a value is the model's choice (assumption 2). -/
def Obligations.Gen32GivesTheChecksumOrItsFault : Prop :=
  ∀ (s : State) (c : Context) (a n : Nat), s.contexts[s.cur]? = some c → c.addr.value.toNat = a → c.len.value.toNat = n →
    (a + n > 2 ^ 64 → exec .gen32 s = .next (faulted (operandsRead s c) c .range)) ∧
    (a + n ≤ 2 ^ 64 → s.mem.unreadableIn a n → exec .gen32 s = .next (faulted (operandsRead s c) c .memory)) ∧
    ∀ b : List Byte, a + n ≤ 2 ^ 64 → b.length = n → s.mem.holds a b →
      exec .gen32 s = .next (completed (operandsRead s c) c ((crc32Of (c.crcin.value.setWidth 32) b).setWidth 64))

/-- GEN64 on every operand (R113, by R110). That the run goes on from an operand register without a value is the model's
choice (assumption 2). -/
def Obligations.Gen64GivesTheChecksumOrItsFault : Prop :=
  ∀ (s : State) (c : Context) (a n : Nat), s.contexts[s.cur]? = some c → c.addr.value.toNat = a → c.len.value.toNat = n →
    (a + n > 2 ^ 64 → exec .gen64 s = .next (faulted (operandsRead s c) c .range)) ∧
    (a + n ≤ 2 ^ 64 → s.mem.unreadableIn a n → exec .gen64 s = .next (faulted (operandsRead s c) c .memory)) ∧
    ∀ b : List Byte, a + n ≤ 2 ^ 64 → b.length = n → s.mem.holds a b →
      exec .gen64 s = .next (completed (operandsRead s c) c (crc64Of c.crcin.value b))

/-! ### The Accelerated Computer -/

/-- R152: every folding constant is the value of its formula, with the degrees the rule gives. -/
def Obligations.FoldingConstantsMatchTheirFormulas : Prop :=
  fold32G = 0x104C11DB7 ∧ fold32K1 = pmod (2 ^ 192) fold32G ∧ fold32K2 = pmod (2 ^ 128) fold32G ∧
  fold32K3 = pmod (2 ^ 96) fold32G ∧ fold32K4 = pmod (2 ^ 64) fold32G ∧ fold32Mu = pdiv (2 ^ 64) fold32G ∧
  fold64G = 0x142F0E1EBA9EA3693 ∧ fold64K1 = pmod (2 ^ 192) fold64G ∧ fold64K2 = pmod (2 ^ 128) fold64G ∧
  fold64K3 = pmod (2 ^ 128) fold64G ∧ fold64K3 = fold64K2 ∧ fold64Mu = pdiv (2 ^ 128) fold64G ∧
  fold32K1 = 0xC5B9CD4C ∧ fold32K2 = 0xE8A45605 ∧ fold32K3 = 0xF200AA66 ∧ fold32K4 = 0x490D678D ∧
  fold32Mu = 0x104D101DF ∧ fold64K1 = 0x4EB938A7D257740E ∧ fold64K2 = 0x05F5C3C7EB52FAB6 ∧
  fold64Mu = 0x1578D29D06CC4F872 ∧
  (∀ k ∈ [fold32K1, fold32K2, fold32K3, fold32K4], k < 2 ^ 32) ∧ (∀ k ∈ [fold64K1, fold64K2, fold64K3], k < 2 ^ 64) ∧
  polyDeg fold32G = 32 ∧ polyDeg fold32Mu = 32 ∧ polyDeg fold64G = 64 ∧ polyDeg fold64Mu = 64

/-- R150: the lane polynomial is `rev_128(LE(B16))` and `m(B16)`, and bit `t` of byte `b_j` is its coefficient of
`x^(127 - 8j - t)`. -/
def Obligations.LanePolynomialCoefficients : Prop :=
  ∀ lane : List Byte, lane.length = 16 →
    lanePoly lane = revBits 128 (leNat lane) ∧ lanePoly lane = messagePoly lane ∧ lanePoly lane < 2 ^ 128 ∧
    ∀ (j : Nat) (hj : j < lane.length) (t : Nat), t < 8 →
      (lanePoly lane).testBit (127 - 8 * j - t) = lane[j].getLsbD t

/-- R155: after each fold step the accumulator is below 2^128 and congruent to the prefix's polynomial, the first lane taken
with the raw register XORed in. -/
def Obligations.FoldAccumulatorStaysCongruent : Prop :=
  (∀ (r : Word32) (lane : List Byte) (lanes : List (List Byte)), (∀ l ∈ lane :: lanes, l.length = 16) →
    foldLanes fold32K1 fold32K2 r (lane :: lanes) < 2 ^ 128 ∧
    pmod (foldLanes fold32K1 fold32K2 r (lane :: lanes)) fold32G =
      pmod (laneSum (lanePoly (withRegister r lane) :: lanes.map lanePoly)) fold32G) ∧
  ∀ (r : Word) (lane : List Byte) (lanes : List (List Byte)), (∀ l ∈ lane :: lanes, l.length = 16) →
    foldLanes fold64K1 fold64K2 r (lane :: lanes) < 2 ^ 128 ∧
    pmod (foldLanes fold64K1 fold64K2 r (lane :: lanes)) fold64G =
      pmod (laneSum (lanePoly (withRegister r lane) :: lanes.map lanePoly)) fold64G

/-- R156, R157: the stages of the final reduction keep the value congruent to `A * x^W` and give the widths the rules name. -/
def Obligations.ReductionStagesKeepCongruence : Prop :=
  (∀ A : Nat, A < 2 ^ 128 →
    reduceStage1 32 fold32K3 A < 2 ^ 96 ∧ pmod (reduceStage1 32 fold32K3 A) fold32G = pmod (A <<< 32) fold32G ∧
    reduceStage2 fold32K4 (reduceStage1 32 fold32K3 A) < 2 ^ 64 ∧
    pmod (reduceStage2 fold32K4 (reduceStage1 32 fold32K3 A)) fold32G = pmod (A <<< 32) fold32G) ∧
  ∀ A : Nat, A < 2 ^ 128 →
    reduceStage1 64 fold64K3 A < 2 ^ 128 ∧ pmod (reduceStage1 64 fold64K3 A) fold64G = pmod (A <<< 64) fold64G

/-- R158: Barrett reduction is exact below 2^(2W), with the bounds and the quotient the rule names. -/
def Obligations.BarrettReductionIsExact : Prop :=
  (∀ R : Nat, R < 2 ^ 64 →
    clmul (R >>> 32) fold32Mu < 2 ^ 64 ∧ clmul (R >>> 32) fold32Mu >>> 32 = pdiv R fold32G ∧
    barrett 32 fold32Mu fold32G R = pmod R fold32G) ∧
  ∀ R : Nat, R < 2 ^ 128 →
    clmul (R >>> 64) fold64Mu < 2 ^ 128 ∧ clmul (R >>> 64) fold64Mu >>> 64 = pdiv R fold64G ∧
    barrett 64 fold64Mu fold64G R = pmod R fold64G

/-- R160: the fold datapath is the raw update, for every register and every nonempty whole number of lanes. -/
def Obligations.FoldDatapathIsTheRawUpdate : Prop :=
  ∀ b : List Byte, b ≠ [] → b.length % 16 = 0 →
    (∀ r : Word32, fold32 r b = update32 r b) ∧ ∀ r : Word, fold64 r b = update64 r b

/-- FOLD32 on every operand: the five preconditions of R161 in order, else CRC_32 of the buffer (R162, by R160). Checks 1 to 3
leave CAP alone; after them CAP is filled, even when the command faults. That the run goes on from an operand register without
a value is the model's choice (assumption 2). -/
def Obligations.Fold32ChecksItsContractThenGivesTheChecksum : Prop :=
  ∀ (s p q : State) (c : Context) (a n : Nat), s.contexts[s.cur]? = some c → c.addr.value.toNat = a → c.len.value.toNat = n →
    p = operandsRead s c → q = { p with cap := capAfter s } →
    (a + n > 2 ^ 64 → exec .fold32 s = .next (faulted p c .range)) ∧
    (a + n ≤ 2 ^ 64 → a % 16 ≠ 0 → exec .fold32 s = .next (faulted p c .misaligned)) ∧
    (a + n ≤ 2 ^ 64 → a % 16 = 0 → n % 16 ≠ 0 ∨ n = 0 → exec .fold32 s = .next (faulted p c .length)) ∧
    (a + n ≤ 2 ^ 64 → a % 16 = 0 → n % 16 = 0 → n ≠ 0 →
      (detected s = false → exec .fold32 s = .next (faulted q c .noAccel)) ∧
      (detected s = true → s.mem.unreadableIn a n → exec .fold32 s = .next (faulted q c .memory)) ∧
      ∀ b : List Byte, detected s = true → b.length = n → s.mem.holds a b →
        exec .fold32 s = .next (completed q c ((crc32Of (c.crcin.value.setWidth 32) b).setWidth 64)))

/-- FOLD64 on every operand (R161, R163, by R160). That the run goes on from an operand register without a value is the model's
choice (assumption 2). -/
def Obligations.Fold64ChecksItsContractThenGivesTheChecksum : Prop :=
  ∀ (s p q : State) (c : Context) (a n : Nat), s.contexts[s.cur]? = some c → c.addr.value.toNat = a → c.len.value.toNat = n →
    p = operandsRead s c → q = { p with cap := capAfter s } →
    (a + n > 2 ^ 64 → exec .fold64 s = .next (faulted p c .range)) ∧
    (a + n ≤ 2 ^ 64 → a % 16 ≠ 0 → exec .fold64 s = .next (faulted p c .misaligned)) ∧
    (a + n ≤ 2 ^ 64 → a % 16 = 0 → n % 16 ≠ 0 ∨ n = 0 → exec .fold64 s = .next (faulted p c .length)) ∧
    (a + n ≤ 2 ^ 64 → a % 16 = 0 → n % 16 = 0 → n ≠ 0 →
      (detected s = false → exec .fold64 s = .next (faulted q c .noAccel)) ∧
      (detected s = true → s.mem.unreadableIn a n → exec .fold64 s = .next (faulted q c .memory)) ∧
      ∀ b : List Byte, detected s = true → b.length = n → s.mem.holds a b →
        exec .fold64 s = .next (completed q c (crc64Of c.crcin.value b)))

/-! ### The Dispatcher -/

/-- R194: the split of a buffer of at least 31 bytes, and what follows from it: the bulk meets the contract of R161 and lies
inside the buffer. -/
def Obligations.SplitGivesAnAlignedBulkInsideTheBuffer : Prop :=
  ∀ a n : Nat, a < 2 ^ 64 → 31 ≤ n →
    headLen a ≤ 15 ∧ (a + headLen a) % 16 = 0 ∧ 16 ≤ bulkLen a n ∧ bulkLen a n % 16 = 0 ∧ tailLen a n ≤ 15 ∧
    headLen a + bulkLen a n + tailLen a n = n ∧ a + headLen a + bulkLen a n ≤ a + n ∧
    (a + n ≤ 2 ^ 64 → foldContract (a + headLen a) (bulkLen a n) = none)

/-- R192: below 31 bytes every cell value takes the generic route; from 31 on there is a whole aligned lane. -/
def Obligations.ShortBuffersTakeTheGenericRoute : Prop :=
  Config.accelMinLen = 31 ∧
  (∀ (sel : Sel) (a : Nat) (c : Word32) (b : List Byte), b.length < 31 → route32 sel a c b = genericRoute32 c b) ∧
  (∀ (sel : Sel) (a : Nat) (c : Word) (b : List Byte), b.length < 31 → route64 sel a c b = genericRoute64 c b) ∧
  ∀ a n : Nat, a < 2 ^ 64 → 31 ≤ n → 16 ≤ bulkLen a n

/-- CRC32 on every operand: resolution first, so that it survives a fault; RANGE, then MEMORY, else CRC_32 of the buffer,
whichever route runs (R197, by R199). That the run goes on from an operand register without a value is the model's choice
(assumption 2). -/
def Obligations.Crc32ResolvesThenGivesTheChecksumOrItsFault : Prop :=
  ∀ (s p : State) (c : Context) (a n : Nat), s.contexts[s.cur]? = some c → c.addr.value.toNat = a → c.len.value.toNat = n →
    p = { operandsRead s c with cap := capAfterResolve s.sel32 s, sel32 := selAfter s.sel32 s } →
    (a + n > 2 ^ 64 → exec .crc32 s = .next (faulted p c .range)) ∧
    (a + n ≤ 2 ^ 64 → s.mem.unreadableIn a n → exec .crc32 s = .next (faulted p c .memory)) ∧
    ∀ b : List Byte, a + n ≤ 2 ^ 64 → b.length = n → s.mem.holds a b →
      exec .crc32 s = .next (completed p c ((crc32Of (c.crcin.value.setWidth 32) b).setWidth 64))

/-- CRC64 on every operand (R198, by R199). That the run goes on from an operand register without a value is the model's choice
(assumption 2). -/
def Obligations.Crc64ResolvesThenGivesTheChecksumOrItsFault : Prop :=
  ∀ (s p : State) (c : Context) (a n : Nat), s.contexts[s.cur]? = some c → c.addr.value.toNat = a → c.len.value.toNat = n →
    p = { operandsRead s c with cap := capAfterResolve s.sel64 s, sel64 := selAfter s.sel64 s } →
    (a + n > 2 ^ 64 → exec .crc64 s = .next (faulted p c .range)) ∧
    (a + n ≤ 2 ^ 64 → s.mem.unreadableIn a n → exec .crc64 s = .next (faulted p c .memory)) ∧
    ∀ b : List Byte, a + n ≤ 2 ^ 64 → b.length = n → s.mem.holds a b →
      exec .crc64 s = .next (completed p c (crc64Of c.crcin.value b))

/-- R199: both routes give the checksum, so a Dispatcher command leaves the same RESULT as its Generic Computer command,
whatever the cells and the address are. -/
def Obligations.BothRoutesGiveTheChecksum : Prop :=
  (∀ (c : Word32) (b : List Byte), genericRoute32 c b = crc32Of c b) ∧
  (∀ (c : Word) (b : List Byte), genericRoute64 c b = crc64Of c b) ∧
  (∀ (a : Nat) (c : Word32) (b : List Byte), a < 2 ^ 64 → 31 ≤ b.length → acceleratedRoute32 a c b = crc32Of c b) ∧
  (∀ (a : Nat) (c : Word) (b : List Byte), a < 2 ^ 64 → 31 ≤ b.length → acceleratedRoute64 a c b = crc64Of c b) ∧
  (∀ s t u : State, exec .crc32 s = .next t → exec .gen32 s = .next u → t.contexts = u.contexts) ∧
  ∀ s t u : State, exec .crc64 s = .next t → exec .gen64 s = .next u → t.contexts = u.contexts

/-- R203: RESULT and STATUS of CRC32 and CRC64 are the same under every value of CAP, SEL32 and SEL64. -/
def Obligations.BackendCannotBeObserved : Prop :=
  ∀ (s t u : State) (i : Instr) (cap : Cap) (sel32 sel64 : Sel), i = .crc32 ∨ i = .crc64 →
    exec i s = .next t → exec i (withCells s cap sel32 sel64) = .next u → outcome t = outcome u

/-- An empty buffer gives the incoming accumulator back, whatever ADDR and memory hold (R200). That the command also completes
where ADDR, LEN or CRCIN holds no value is the model's choice (assumption 2); the spec refuses that step (R251). -/
def Obligations.EmptyBufferGivesTheAccumulatorBack : Prop :=
  ∀ (s : State) (c : Context) (m : Memory), s.contexts[s.cur]? = some c → c.len.value = 0 →
    (∃ t, exec .crc32 { s with mem := m } = .next t ∧
      outcome t = some ({ value := (c.crcin.value.setWidth 32).setWidth 64, held := true }, statusAfterOk c.status)) ∧
    ∃ t, exec .crc64 { s with mem := m } = .next t ∧
      outcome t = some ({ value := c.crcin.value, held := true }, statusAfterOk c.status)

/-- R201: the chaining law of RESULT, for every command with a buffer, at any addresses. -/
def Obligations.ResultsChain : Prop :=
  ∀ (i : Instr) (s1 s2 s12 : State) (a1 a2 a12 : Nat) (b1 b2 : List Byte) (x r1 r2 r12 : Word), i ≠ .detect →
    CompletesWith i s1 a1 b1 x r1 → CompletesWith i s2 a2 b2 r1 r2 → CompletesWith i s12 a12 (b1 ++ b2) x r12 →
    r12 = r2

/-- R58: the result depends on the bytes and the accumulator alone, not on the address. -/
def Obligations.ResultsDoNotDependOnTheAddress : Prop :=
  ∀ (i : Instr) (s s' : State) (a a' : Nat) (b : List Byte) (x r r' : Word),
    i = .crc32 ∨ i = .crc64 ∨ i = .gen32 ∨ i = .gen64 →
    CompletesWith i s a b x r → CompletesWith i s' a' b x r' → r = r'

/-- 20_memory.md R55: no command depends on NATIVE_ORDER. -/
def Obligations.NativeOrderChangesNothing : Prop :=
  ∀ (i : Instr) (s t : State) (o : ByteOrder), exec i s = .next t → exec i (withOrder s o) = .next (withOrder t o)

/-! ### Faults -/

/-- A command that faults writes CODE and FAULT and nothing else of its context: RESULT is kept and no memory is written
(R221); the only cells it may have changed are those of R225. That CMD holds also a word that does not decode is the model's
reading (assumption 11, DEDUCED). -/
def Obligations.FaultWritesOnlyStatus : Prop :=
  ∀ (w : Word32) (s t : State) (c d : Context), issue w s = .next t → s.contexts[s.cur]? = some c →
    t.contexts[s.cur]? = some d → statusCode d.status ≠ 0 →
    ∃ code : StatusCode, code ≠ .ok ∧ statusCode d.status = code.number ∧ statusFault d.status = true ∧
      d = { c with cmd := w, status := packStatus true code } ∧ t.mem = s.mem ∧
      (t.sel32 = s.sel32 ∨ (decode w = .ok .crc32 ∧ t.sel32 = selAfter s.sel32 s)) ∧
      (t.sel64 = s.sel64 ∨ (decode w = .ok .crc64 ∧ t.sel64 = selAfter s.sel64 s)) ∧
      (t.cap = s.cap ∨ (t.cap = capAfter s ∧ (decode w = .ok .crc32 ∨ decode w = .ok .crc64 ∨
        ((decode w = .ok .fold32 ∨ decode w = .ok .fold64) ∧ (code = .noAccel ∨ code = .memory)))))

/-- Of the faults that apply to a command word, the one with the lowest code is reported; CODE is OK exactly when none applies
(R224). That a buffer command runs on where ADDR, LEN or CRCIN holds no value is the model's choice (assumption 2); the spec
refuses that step (R251). -/
def Obligations.LowestApplicableFaultIsReported : Prop :=
  ∀ (s : State) (c : Context) (w : Word32), s.contexts[s.cur]? = some c →
    ∃ t d, issue w s = .next t ∧ t.contexts[s.cur]? = some d ∧
      (statusCode d.status = 0 ↔ ∀ code, ¬ applies s c w code) ∧
      ∀ code : StatusCode, code ≠ .ok →
        (statusCode d.status = code.number ↔
          applies s c w code ∧ ∀ lower : StatusCode, lower.number < code.number → ¬ applies s c w lower)

/-- R223: the table of which command raises which fault, both what it can raise and what it never does. -/
def Obligations.FaultTableIsExact : Prop :=
  (∀ (i : Instr) (code : StatusCode), code ≠ .ok →
    ((∃ w : Word32, w &&& 0xFF = encode i ∧ canGive w code) ↔ mayRaise i code = true)) ∧
  ∀ code : StatusCode, (∃ w : Word32, w &&& 0xFF ∉ assigned ∧ canGive w code) ↔ code = .illegalOpcode

/-- 10_state.md R26, 60_exceptions.md R227: FAULT stays 1 over any run. -/
def Obligations.FaultBitIsSticky : Prop :=
  ∀ (k c : Nat) (s t : State) (x : Context), s.contexts[c]? = some x → statusFault x.status = true →
    Sys2Proof.core.run k s = .next t → ∃ y, t.contexts[c]? = some y ∧ statusFault y.status = true

/-! ### Frames and isolation -/

/-- What every command leaves alone when it answers a next state: memory byte by byte, the other contexts, the operand
registers and CMD of its own, the platform, the order of actions and what was returned; FAULT is never cleared and the
refusal mark never taken back (R23, R37, R51, R26, R251). -/
def Obligations.CommandsLeaveEverythingElseAlone : Prop :=
  ∀ (i : Instr) (s t : State), exec i s = .next t →
    (∀ a : Nat, t.mem.read a = s.mem.read a) ∧ t.contexts.length = s.contexts.length ∧
    (∀ d : Nat, d ≠ s.cur → t.contexts[d]? = s.contexts[d]?) ∧
    (∀ c, s.contexts[s.cur]? = some c → ∃ d, t.contexts[s.cur]? = some d ∧ d.cmd = c.cmd ∧ d.addr = c.addr ∧
      d.len = c.len ∧ d.crcin = c.crcin ∧ (statusFault c.status = true → statusFault d.status = true)) ∧
    t.platform = s.platform ∧ t.cur = s.cur ∧ t.pending = s.pending ∧ t.returned = s.returned ∧
    (s.refusalMark = true → t.refusalMark = true)

/-- Which command writes which cell (R27, R28, R112, R113, R136, R162, R163, R197, R198): GEN none, DETECT and FOLD only CAP,
CRC32 SEL32 and CAP, CRC64 SEL64 and CAP; a cell that is filled is never changed. -/
def Obligations.CommandsFillOnlyTheirCells : Prop :=
  ∀ (i : Instr) (s t : State), exec i s = .next t →
    (i = .gen32 ∨ i = .gen64 → t.cap = s.cap) ∧ (i ≠ .crc32 → t.sel32 = s.sel32) ∧ (i ≠ .crc64 → t.sel64 = s.sel64) ∧
    (t.cap = s.cap ∨ t.cap = capAfter s) ∧ (i = .detect → t.cap = capAfter s) ∧
    (i = .crc32 → t.sel32 = selAfter s.sel32 s ∧ t.cap = capAfterResolve s.sel32 s) ∧
    (i = .crc64 → t.sel64 = selAfter s.sel64 s ∧ t.cap = capAfterResolve s.sel64 s)

/-- R37: an action of one context neither changes nor reads another context's port registers. -/
def Obligations.ContextsAreIsolated : Prop :=
  ∀ (s t : State) (act : HostAction) (rest : List HostAction) (d : Nat) (x : Context),
    s.pending = act :: rest → step s = .next t → d ≠ act.ctx →
    t.contexts[d]? = s.contexts[d]? ∧ step (withRegisters s d x) = .next (withRegisters t d x)

/-- The model's form of R251 (assumption 2): a command sets the refusal mark exactly when it reads an operand register that
holds no value; DETECT reads none. -/
def Obligations.CommandMarksExactlyUnwrittenOperands : Prop :=
  ∀ (i : Instr) (s t : State) (c : Context), exec i s = .next t → s.contexts[s.cur]? = some c →
    (t.refusalMark = true ↔ s.refusalMark = true ∨
      (i ≠ .detect ∧ ¬ (c.addr.held = true ∧ c.len.held = true ∧ c.crcin.held = true)))

/-! ### The host's actions -/

/-- `set` and `mov` change the named register of their own context alone and causes no command (R80, R81); `mov` of a RESULT
that holds no value sets the refusal mark and copies the register's bits (assumption 2). -/
def Obligations.SetAndMovWriteOneRegister : Prop :=
  ∀ (s : State) (c : Nat) (x : Context) (rest : List HostAction), s.contexts[c]? = some x →
    (∀ v, s.pending = ⟨c, .set .addr v⟩ :: rest → step s = .next { s with
      cur := c, pending := rest, contexts := s.contexts.set c { x with addr := { value := v, held := true } } }) ∧
    (∀ v, s.pending = ⟨c, .set .len v⟩ :: rest → step s = .next { s with
      cur := c, pending := rest, contexts := s.contexts.set c { x with len := { value := v, held := true } } }) ∧
    (∀ v, s.pending = ⟨c, .set .crcin v⟩ :: rest → step s = .next { s with
      cur := c, pending := rest, contexts := s.contexts.set c { x with crcin := { value := v, held := true } } }) ∧
    (s.pending = ⟨c, .movCrcinResult⟩ :: rest → step s = .next { s with
      cur := c, pending := rest, refusalMark := s.refusalMark || !x.result.held,
      contexts := s.contexts.set c { x with crcin := { value := x.result.value, held := true } } })

/-- `read RESULT` and `read STATUS` return the register to the host and change no register (R80); a RESULT that holds no value
sets the refusal mark (assumption 2). -/
def Obligations.ReadReturnsTheRegister : Prop :=
  ∀ (s : State) (c : Nat) (x : Context) (rest : List HostAction), s.contexts[c]? = some x →
    (s.pending = ⟨c, .read .result⟩ :: rest → step s = .next { s with
      cur := c, pending := rest, refusalMark := s.refusalMark || !x.result.held,
      returned := ⟨c, .result, x.result.value⟩ :: s.returned }) ∧
    (s.pending = ⟨c, .read .status⟩ :: rest → step s = .next { s with
      cur := c, pending := rest, returned := ⟨c, .status, x.status.setWidth 64⟩ :: s.returned })

/-- A host's store changes the one byte a later command reads there and no other, not which addresses are readable, and nothing
else of the machine (R52, R63, R67); memory keeps its canonical form. That one store changes one byte is the model's choice
(assumption 16), and so is that a store to an address that is not readable changes nothing (assumption 5). -/
def Obligations.HostStoreWritesOneByte : Prop :=
  ∀ (s : State) (c : Nat) (a : Word) (b : Byte) (rest : List HostAction), s.mem.wf → c < s.contexts.length →
    s.pending = ⟨c, .store a b⟩ :: rest →
    ∃ m : Memory, step s = .next { s with cur := c, pending := rest, mem := m } ∧ m.wf ∧
      m.read a.toNat = (if (s.mem.read a.toNat).isSome then some b else none) ∧
      ∀ x : Nat, x ≠ a.toNat → m.read x = s.mem.read x

/-- R82 (and R79, R80 for the lines beside it): each pseudo-instruction is its three port operations and its command word, in
order; `set` of RESULT or STATUS is refused. -/
def Obligations.PseudoInstructionsExpandAsTheTableSays : Prop :=
  (∀ (m : Instr) (a n c : Word), m ≠ .detect →
    assemble (.call m a n c) = some [.set .addr a, .set .len n, .set .crcin c, .issue (encode m)]) ∧
  (∀ (m : Instr) (a n : Word), m = .crc32 ∨ m = .crc64 →
    assemble (.fresh m a n) = some [.set .addr a, .set .len n, .set .crcin 0, .issue (encode m)] ∧
    assemble (.chain m a n) = some [.set .addr a, .set .len n, .movCrcinResult, .issue (encode m)]) ∧
  (∀ i : Instr, assemble (.command i) = some [.issue (encode i)]) ∧ (∀ v : Word32, assemble (.word v) = some [.issue v]) ∧
  (∀ v : Word, assemble (.set .result v) = none ∧ assemble (.set .status v) = none ∧ assemble (.set .cmd v) = none) ∧
  ∀ l : AsmLine, (assemble l).isSome = l.wf

/-! ### Reset and the machine invariant -/

/-- The values the spec gives for reset (10_state.md R36): STATUS is 0 and no port register holds a value in any context, of
which there is at least one; CAP is UNKNOWN; SEL32 and SEL64 are UNRESOLVED; no step has been refused. -/
def Obligations.ResetLeavesTheSpecifiedValues : Prop :=
  State.reset.contexts ≠ [] ∧
  (∀ c ∈ State.reset.contexts, c.status = 0 ∧ c.addr.held = false ∧ c.len.held = false ∧ c.crcin.held = false ∧
    c.result.held = false) ∧
  State.reset.cap = .unknown ∧ State.reset.sel32 = .unresolved ∧ State.reset.sel64 = .unresolved ∧
  State.reset.refusalMark = false

/-- The machine invariant holds at reset. -/
def Obligations.InvariantHoldsAtReset : Prop := State.reset.Inv

/-- Every step keeps the machine invariant: memory in canonical form, STATUS legal in every context (R26, R220), CAP agreeing
with the platform (R27, R135), SEL32 and SEL64 agreeing with CAP (R190), and a context to issue commands (R20). -/
def Obligations.EveryStepKeepsTheInvariant : Prop :=
  ∀ s t : State, s.Inv → step s = .next t → t.Inv

/-- What the platform fixes for a process no step changes: its inputs (R29), the number of contexts (R20), and which addresses
are readable (R52, R67). -/
def Obligations.PlatformStaysFixed : Prop :=
  ∀ (k : Nat) (s t : State), Sys2Proof.core.run k s = .next t →
    t.platform = s.platform ∧ t.contexts.length = s.contexts.length ∧
    ∀ a : Nat, (t.mem.read a).isSome = (s.mem.read a).isSome
end

