-- ==== Sys2Proof/Laws/Crc.lean ====
section
/-! SUPPORT. The bit step and the raw update are linear over GF(2), chain, and only shift while the low bits are zero
(40_generic.md R102, R103). -/

namespace Sys2Proof.Machine

variable {w : Nat}

/-! ### Bit steps -/

@[simp] theorem bitStep_zero (p : BitVec w) : bitStep p 0 = 0 := by simp [bitStep]

theorem bitStep_xor (p r q : BitVec w) : bitStep p (r ^^^ q) = bitStep p r ^^^ bitStep p q := by
  apply BitVec.eq_of_getLsbD_eq
  intro i hi
  simp only [bitStep, BitVec.getLsbD_xor, BitVec.getLsbD_ushiftRight]
  cases r.getLsbD 0 <;> cases q.getLsbD 0 <;> cases hp : p.getLsbD i <;> cases r.getLsbD (1 + i) <;>
    cases q.getLsbD (1 + i) <;> simp [hp]

@[simp] theorem bitSteps_of_zero (p : BitVec w) (k : Nat) : bitSteps p k 0 = 0 := by
  induction k with
  | zero => rfl
  | succ k ih => rw [bitSteps, bitStep_zero]; exact ih

theorem bitSteps_xor (p : BitVec w) (k : Nat) (r q : BitVec w) :
    bitSteps p k (r ^^^ q) = bitSteps p k r ^^^ bitSteps p k q := by
  induction k generalizing r q with
  | zero => rfl
  | succ k ih => simp only [bitSteps, bitStep_xor, ih]

theorem bitSteps_add (p : BitVec w) (k l : Nat) (r : BitVec w) :
    bitSteps p (k + l) r = bitSteps p l (bitSteps p k r) := by
  induction k generalizing r with
  | zero => simp [bitSteps]
  | succ k ih => rw [Nat.add_right_comm]; exact ih _

/-- While the low bits are zero, the polynomial never comes in and the register only shifts. -/
theorem bitSteps_of_low_zero (p : BitVec w) (k : Nat) (r : BitVec w) (h : ∀ i, i < k → r.getLsbD i = false) :
    bitSteps p k r = r >>> k := by
  induction k generalizing r with
  | zero => simp [bitSteps]
  | succ k ih =>
    have h1 : bitStep p r = r >>> 1 := by simp [bitStep, h 0 (by omega)]
    rw [bitSteps, h1, ih]
    · rw [← BitVec.shiftRight_add, Nat.add_comm]
    · intro i hi
      rw [BitVec.getLsbD_ushiftRight]
      exact h (1 + i) (by omega)

/-- `k` bit steps shift the part above bit `k` and run the part below it through the polynomial. -/
theorem bitSteps_split (p : BitVec w) (k : Nat) (r : BitVec w) :
    bitSteps p k r = (r >>> k) ^^^ bitSteps p k ((r.setWidth k).setWidth w) := by
  have h : r = (r ^^^ (r.setWidth k).setWidth w) ^^^ (r.setWidth k).setWidth w := by
    rw [BitVec.xor_assoc, BitVec.xor_self, BitVec.xor_zero]
  conv => lhs; rw [h]
  rw [bitSteps_xor, bitSteps_of_low_zero]
  · congr 1
    apply BitVec.eq_of_getLsbD_eq
    intro i hi
    simp only [BitVec.getLsbD_ushiftRight, BitVec.getLsbD_xor, BitVec.getLsbD_setWidth]
    simp
  · intro i hi
    simp only [BitVec.getLsbD_xor, BitVec.getLsbD_setWidth, hi, decide_true, Bool.true_and]
    by_cases hw : i < w
    · simp [hw]
    · simp [hw, BitVec.getLsbD_of_ge _ _ (Nat.le_of_not_lt hw)]

/-! ### The raw update -/

@[simp] theorem rawUpdate_nil (p r : BitVec w) : rawUpdate p r [] = r := rfl

theorem rawUpdate_cons (p r : BitVec w) (b : Byte) (bs : List Byte) :
    rawUpdate p r (b :: bs) = rawUpdate p (bitSteps p 8 (r ^^^ b.setWidth w)) bs := rfl

/-- The raw update takes a buffer in pieces (R105, law 2). -/
theorem rawUpdate_append (p r : BitVec w) (b c : List Byte) :
    rawUpdate p r (b ++ c) = rawUpdate p (rawUpdate p r b) c := by
  induction b generalizing r with
  | nil => rfl
  | cons x b ih => exact ih _

/-- The raw update is linear in register and buffer together (R105, law 3). -/
theorem rawUpdate_xor (p r q : BitVec w) {b c : List Byte} (h : b.length = c.length) :
    rawUpdate p (r ^^^ q) (List.zipWith (· ^^^ ·) b c) = rawUpdate p r b ^^^ rawUpdate p q c := by
  induction b generalizing r q c with
  | nil =>
    cases c with
    | nil => rfl
    | cons y c => simp at h
  | cons x b ih =>
    cases c with
    | nil => simp at h
    | cons y c =>
      rw [List.zipWith_cons_cons, rawUpdate_cons, rawUpdate_cons, rawUpdate_cons, ← ih _ _ (by simpa using h),
        ← bitSteps_xor]
      congr 2
      apply BitVec.eq_of_getLsbD_eq
      intro i hi
      simp only [BitVec.getLsbD_xor, BitVec.getLsbD_setWidth]
      cases r.getLsbD i <;> cases q.getLsbD i <;> cases x.getLsbD i <;> cases y.getLsbD i <;> simp

/-- A run of zero bytes is bit steps alone. -/
theorem rawUpdate_replicate_zero (p r : BitVec w) (n : Nat) :
    rawUpdate p r (List.replicate n 0) = bitSteps p (8 * n) r := by
  induction n generalizing r with
  | zero => rfl
  | succ n ih =>
    rw [List.replicate_succ, rawUpdate_cons, ih, Nat.mul_succ, Nat.add_comm, bitSteps_add]
    simp

/-- Row 0 of a table is eight bit steps of the index (R106). -/
theorem tableRow0_eq (p : BitVec w) (i : Byte) : tableRow0 p i = bitSteps p 8 (i.setWidth w) := by
  simp [tableRow0, rawUpdate_cons]

/-- Passing through row 0 is eight bit steps, at any register of at least a byte (R106, R107). -/
theorem tableNext_eq (p t : BitVec w) : tableNext p t = bitSteps p 8 t := by
  rw [tableNext, tableRow0_eq, bitSteps_split p 8 t]

end Sys2Proof.Machine
end

