-- ==== Sys2Proof/Laws/Memory.lean ====
section
/-! SUPPORT. Memory: read after store, readability, the canonical form, and what `MemRead` returns (20_memory.md R52, R53). -/

namespace Sys2Proof.Machine

/-! ### Cells -/

@[simp] theorem byteAt_nil (a : Nat) : byteAt [] a = unlistedByte := rfl

theorem byteAt_cons (k : Nat) (v : Byte) (cells : List Host.Cell) (a : Nat) :
    byteAt ((k, v) :: cells) a = if k = a then v else byteAt cells a := rfl

/-- An address that no entry lists holds the unlisted byte. -/
theorem byteAt_of_not_mem {cells : List Host.Cell} {a : Nat} (h : ∀ x ∈ cells, x.1 ≠ a) :
    byteAt cells a = unlistedByte := by
  induction cells with
  | nil => rfl
  | cons x cells ih =>
    obtain ⟨k, v⟩ := x
    rw [byteAt_cons, if_neg (h (k, v) (by simp))]
    exact ih fun y hy => h y (by simp [hy])

/-- Reading past a cell put in front, where the cells behind it do not list its address. -/
theorem byteAt_consCell {cells : List Host.Cell} {a : Nat} (h : ∀ x ∈ cells, x.1 ≠ a) (b : Byte) (x : Nat) :
    byteAt (consCell a b cells) x = if x = a then b else byteAt cells x := by
  unfold consCell
  split
  · rename_i hb
    split
    · rename_i hx
      rw [hx, byteAt_of_not_mem h, hb]
    · rfl
  · simp only [byteAt_cons, eq_comm]

/-- Reading an address after a byte was put, in cells of rising address. -/
theorem byteAt_putByte {cells : List Host.Cell} (hc : cells.Pairwise fun x y => x.1 < y.1) (a : Nat) (b : Byte) (x : Nat) :
    byteAt (putByte cells a b) x = if x = a then b else byteAt cells x := by
  induction cells with
  | nil => exact byteAt_consCell (by simp) b x
  | cons y cells ih =>
    obtain ⟨k, v⟩ := y
    have hp := List.pairwise_cons.1 hc
    have above : ∀ z ∈ cells, k < z.1 := hp.1
    unfold putByte
    split
    · rename_i h
      refine byteAt_consCell (fun z hz => ?_) b x
      rcases List.mem_cons.1 hz with rfl | hz
      · exact Nat.ne_of_gt h
      · exact Nat.ne_of_gt (Nat.lt_trans h (above z hz))
    · split
      · rename_i h
        subst h
        rw [byteAt_consCell (fun z hz => Nat.ne_of_gt (above z hz)), byteAt_cons]
        by_cases hx : x = a
        · simp [hx]
        · simp [hx, Ne.symm hx]
      · rename_i h
        rw [byteAt_cons, byteAt_cons, ih hp.2]
        by_cases hk : k = x
        · subst hk
          simp [Ne.symm h]
        · simp [hk]

/-- What the cells list after a byte was put. -/
theorem mem_putByte {cells : List Host.Cell} {a : Nat} {b : Byte} {x : Host.Cell} (h : x ∈ putByte cells a b) :
    (x = (a, b) ∧ b ≠ unlistedByte) ∨ x ∈ cells := by
  have front : ∀ l, x ∈ consCell a b l → (x = (a, b) ∧ b ≠ unlistedByte) ∨ x ∈ l := by
    intro l h
    unfold consCell at h
    split at h
    · exact .inr h
    · rename_i hb
      exact (List.mem_cons.1 h).imp_left fun hx => ⟨hx, hb⟩
  induction cells with
  | nil => exact front _ h
  | cons y cells ih =>
    obtain ⟨k, v⟩ := y
    unfold putByte at h
    split at h
    · exact front _ h
    · split at h
      · exact (front _ h).imp_right fun hx => List.mem_cons_of_mem _ hx
      · rcases List.mem_cons.1 h with h | h
        · exact .inr (by simp [h])
        · exact (ih h).imp_right fun hx => List.mem_cons_of_mem _ hx

/-- Putting a byte keeps the addresses rising. -/
theorem putByte_pairwise {cells : List Host.Cell} (hc : cells.Pairwise fun x y => x.1 < y.1) (a : Nat) (b : Byte) :
    (putByte cells a b).Pairwise fun x y => x.1 < y.1 := by
  have front : ∀ l : List Host.Cell, (∀ z ∈ l, a < z.1) → l.Pairwise (fun x y => x.1 < y.1) →
      (consCell a b l).Pairwise fun x y => x.1 < y.1 := by
    intro l h hl
    unfold consCell
    split
    · exact hl
    · exact List.pairwise_cons.2 ⟨h, hl⟩
  induction cells with
  | nil => exact front _ (by simp) .nil
  | cons y cells ih =>
    obtain ⟨k, v⟩ := y
    have hp := List.pairwise_cons.1 hc
    unfold putByte
    split
    · rename_i h
      refine front _ (fun z hz => ?_) hc
      rcases List.mem_cons.1 hz with rfl | hz
      · exact h
      · exact Nat.lt_trans h (hp.1 z hz)
    · split
      · rename_i h
        exact front _ (fun z hz => h ▸ hp.1 z hz) hp.2
      · rename_i h1 h2
        refine List.pairwise_cons.2 ⟨fun z hz => ?_, ih hp.2⟩
        rcases mem_putByte hz with ⟨rfl, -⟩ | hz
        · exact Nat.lt_of_le_of_ne (Nat.le_of_not_lt h1) (Ne.symm h2)
        · exact hp.1 z hz

/-! ### Reading and storing -/

theorem Memory.read_of_readable {m : Memory} {a : Nat} (h : m.readable a = true) :
    m.read a = some (byteAt m.cells a) := if_pos h

/-- A byte is read exactly at the readable addresses (R52). -/
@[simp] theorem Memory.read_isSome (m : Memory) (a : Nat) : (m.read a).isSome = m.readable a := by
  unfold Memory.read
  split <;> simp_all

@[simp] theorem Memory.read_eq_none_iff {m : Memory} {a : Nat} : m.read a = none ↔ m.readable a = false := by
  rw [← Memory.read_isSome, Option.isSome_eq_false_iff, Option.isNone_iff_eq_none]

/-- A store leaves what is readable as it is (R52, R67). -/
@[simp] theorem Memory.write_regions (m : Memory) (a : Nat) (b : Byte) : (m.write a b).regions = m.regions := by
  unfold Memory.write
  split <;> rfl

@[simp] theorem Memory.write_readable (m : Memory) (a : Nat) (b : Byte) (x : Nat) :
    (m.write a b).readable x = m.readable x := by
  simp [Memory.readable]

/-- A store to an address that is not readable changes nothing. -/
theorem Memory.write_of_unreadable {m : Memory} {a : Nat} (h : m.readable a = false) (b : Byte) : m.write a b = m := by
  simp [Memory.write, h]

/-- Reading an address after a store, in a memory in canonical form. -/
theorem Memory.read_write {m : Memory} (hm : m.wf) (a : Nat) (b : Byte) (x : Nat) :
    (m.write a b).read x = if x = a ∧ m.readable a = true then some b else m.read x := by
  cases ha : m.readable a with
  | false => simp [Memory.write_of_unreadable ha]
  | true =>
    have hcells : (m.write a b).cells = putByte m.cells a b := by simp [Memory.write, ha]
    unfold Memory.read
    rw [Memory.write_readable, hcells, byteAt_putByte hm.1]
    by_cases hx : x = a
    · simp [hx, ha]
    · simp [hx]

/-- A store keeps the canonical form. -/
theorem Memory.write_wf {m : Memory} (hm : m.wf) (a : Nat) (b : Byte) : (m.write a b).wf := by
  cases ha : m.readable a with
  | false => rwa [Memory.write_of_unreadable ha]
  | true =>
    have hcells : (m.write a b).cells = putByte m.cells a b := by simp [Memory.write, ha]
    unfold Memory.wf
    simp only [hcells, Memory.write_readable]
    refine ⟨putByte_pairwise hm.1 a b, fun x hx => ?_⟩
    rcases mem_putByte hx with ⟨rfl, hb⟩ | hx
    · exact ⟨ha, hb⟩
    · exact hm.2 x hx

/-- A memory with no byte listed is in canonical form, whatever is readable: so reset memory is. -/
theorem Memory.no_cells_wf (regions : List Region) : Memory.wf { regions := regions, cells := [] } := by simp [Memory.wf]

/-! ### MemRead -/

@[simp] theorem Memory.bytes_zero (m : Memory) (a : Nat) : m.bytes a 0 = some [] := rfl

theorem Memory.bytes_succ (m : Memory) (a n : Nat) :
    m.bytes a (n + 1) = (m.read a).bind fun b => (m.bytes (a + 1) n).map (b :: ·) := by
  rw [Memory.bytes]; cases m.read a <;> rfl

/-- `MemRead(a, n)` gives the bytes at `a, a + 1, …` when each has one (R52, R53). -/
theorem Memory.bytes_of_holds {m : Memory} {a : Nat} {b : List Byte} (h : m.holds a b) :
    m.bytes a b.length = some b := by
  induction b generalizing a with
  | nil => rfl
  | cons x b ih =>
    have h0 : m.read a = some x := h 0 (by simp)
    have hb : m.holds (a + 1) b := fun i hi => by
      have h1 : m.read (a + (i + 1)) = some b[i] := h (i + 1) (by simpa using hi)
      rw [← h1]; congr 1; omega
    simp [Memory.bytes_succ, h0, ih hb]

/-- What a successful `MemRead(a, n)` returned (R52, R53). -/
theorem Memory.holds_of_bytes {m : Memory} {a n : Nat} {b : List Byte} (h : m.bytes a n = some b) :
    b.length = n ∧ m.holds a b := by
  induction n generalizing a b with
  | zero =>
    obtain rfl : [] = b := by simpa using h
    exact ⟨rfl, fun i hi => absurd hi (by simp)⟩
  | succ n ih =>
    rw [Memory.bytes_succ] at h
    obtain ⟨x, hx, h⟩ := Option.bind_eq_some_iff.1 h
    obtain ⟨l, hl, rfl⟩ := Option.map_eq_some_iff.1 h
    obtain ⟨hlen, hold⟩ := ih hl
    refine ⟨by simp [hlen], fun i hi => ?_⟩
    cases i with
    | zero => exact hx
    | succ i =>
      refine Eq.trans ?_ (hold i (by simpa using hi))
      congr 1; omega

/-- `MemRead(a, n)` fails exactly when a byte of the range is not readable (R52). -/
theorem Memory.bytes_eq_none_iff {m : Memory} {a n : Nat} :
    m.bytes a n = none ↔ m.unreadableIn a n := by
  induction n generalizing a with
  | zero => simp [Memory.unreadableIn]
  | succ n ih =>
    rw [Memory.bytes_succ]
    cases hx : m.read a with
    | none => exact ⟨fun _ => ⟨0, by omega, by simpa using hx⟩, fun _ => rfl⟩
    | some x =>
      simp only [Option.bind_some, Option.map_eq_none_iff, ih]
      constructor
      · rintro ⟨i, hi, h⟩
        exact ⟨i + 1, by omega, by rw [← h]; congr 1; omega⟩
      · rintro ⟨i, hi, h⟩
        cases i with
        | zero => simp [hx] at h
        | succ i => exact ⟨i, by omega, by rw [← h]; congr 1; omega⟩

end Sys2Proof.Machine
end

