-- ==== Sys2Proof/Laws/State.lean ====
section
/-! SUPPORT. One lemma per field of State and per update of it, so that no later proof unfolds a record update. -/

namespace Sys2Proof.Machine

/-! ### modifyCur -/

@[simp] theorem State.modifyCur_contexts (s : State) (f : Context → Context) : (s.modifyCur f).contexts = s.contexts.modify s.cur f := rfl
@[simp] theorem State.modifyCur_cur (s : State) (f : Context → Context) : (s.modifyCur f).cur = s.cur := rfl
@[simp] theorem State.modifyCur_pending (s : State) (f : Context → Context) : (s.modifyCur f).pending = s.pending := rfl
@[simp] theorem State.modifyCur_returned (s : State) (f : Context → Context) : (s.modifyCur f).returned = s.returned := rfl
@[simp] theorem State.modifyCur_cap (s : State) (f : Context → Context) : (s.modifyCur f).cap = s.cap := rfl
@[simp] theorem State.modifyCur_sel32 (s : State) (f : Context → Context) : (s.modifyCur f).sel32 = s.sel32 := rfl
@[simp] theorem State.modifyCur_sel64 (s : State) (f : Context → Context) : (s.modifyCur f).sel64 = s.sel64 := rfl
@[simp] theorem State.modifyCur_mem (s : State) (f : Context → Context) : (s.modifyCur f).mem = s.mem := rfl
@[simp] theorem State.modifyCur_platform (s : State) (f : Context → Context) : (s.modifyCur f).platform = s.platform := rfl
@[simp] theorem State.modifyCur_refusalMark (s : State) (f : Context → Context) : (s.modifyCur f).refusalMark = s.refusalMark := rfl

/-! ### markUnless -/

@[simp] theorem State.markUnless_contexts (s : State) (ok : Bool) : (s.markUnless ok).contexts = s.contexts := rfl
@[simp] theorem State.markUnless_cur (s : State) (ok : Bool) : (s.markUnless ok).cur = s.cur := rfl
@[simp] theorem State.markUnless_pending (s : State) (ok : Bool) : (s.markUnless ok).pending = s.pending := rfl
@[simp] theorem State.markUnless_returned (s : State) (ok : Bool) : (s.markUnless ok).returned = s.returned := rfl
@[simp] theorem State.markUnless_cap (s : State) (ok : Bool) : (s.markUnless ok).cap = s.cap := rfl
@[simp] theorem State.markUnless_sel32 (s : State) (ok : Bool) : (s.markUnless ok).sel32 = s.sel32 := rfl
@[simp] theorem State.markUnless_sel64 (s : State) (ok : Bool) : (s.markUnless ok).sel64 = s.sel64 := rfl
@[simp] theorem State.markUnless_mem (s : State) (ok : Bool) : (s.markUnless ok).mem = s.mem := rfl
@[simp] theorem State.markUnless_platform (s : State) (ok : Bool) : (s.markUnless ok).platform = s.platform := rfl
@[simp] theorem State.markUnless_refusalMark (s : State) (ok : Bool) : (s.markUnless ok).refusalMark = (s.refusalMark || !ok) := rfl

/-! ### readOperands -/

@[simp] theorem State.readOperands_contexts (s : State) (c : Context) : (s.readOperands c).contexts = s.contexts := rfl
@[simp] theorem State.readOperands_cur (s : State) (c : Context) : (s.readOperands c).cur = s.cur := rfl
@[simp] theorem State.readOperands_pending (s : State) (c : Context) : (s.readOperands c).pending = s.pending := rfl
@[simp] theorem State.readOperands_returned (s : State) (c : Context) : (s.readOperands c).returned = s.returned := rfl
@[simp] theorem State.readOperands_cap (s : State) (c : Context) : (s.readOperands c).cap = s.cap := rfl
@[simp] theorem State.readOperands_sel32 (s : State) (c : Context) : (s.readOperands c).sel32 = s.sel32 := rfl
@[simp] theorem State.readOperands_sel64 (s : State) (c : Context) : (s.readOperands c).sel64 = s.sel64 := rfl
@[simp] theorem State.readOperands_mem (s : State) (c : Context) : (s.readOperands c).mem = s.mem := rfl
@[simp] theorem State.readOperands_platform (s : State) (c : Context) : (s.readOperands c).platform = s.platform := rfl
@[simp] theorem State.readOperands_refusalMark (s : State) (c : Context) : (s.readOperands c).refusalMark = (s.refusalMark || !c.operandsHeld) := rfl

/-! ### complete -/

@[simp] theorem State.complete_contexts (s : State) (v : Word) : (s.complete v).contexts = 
    s.contexts.modify s.cur fun c => { c with result := .written v, status := statusAfterOk c.status } := rfl
@[simp] theorem State.complete_cur (s : State) (v : Word) : (s.complete v).cur = s.cur := rfl
@[simp] theorem State.complete_pending (s : State) (v : Word) : (s.complete v).pending = s.pending := rfl
@[simp] theorem State.complete_returned (s : State) (v : Word) : (s.complete v).returned = s.returned := rfl
@[simp] theorem State.complete_cap (s : State) (v : Word) : (s.complete v).cap = s.cap := rfl
@[simp] theorem State.complete_sel32 (s : State) (v : Word) : (s.complete v).sel32 = s.sel32 := rfl
@[simp] theorem State.complete_sel64 (s : State) (v : Word) : (s.complete v).sel64 = s.sel64 := rfl
@[simp] theorem State.complete_mem (s : State) (v : Word) : (s.complete v).mem = s.mem := rfl
@[simp] theorem State.complete_platform (s : State) (v : Word) : (s.complete v).platform = s.platform := rfl
@[simp] theorem State.complete_refusalMark (s : State) (v : Word) : (s.complete v).refusalMark = s.refusalMark := rfl

/-! ### raise -/

@[simp] theorem State.raise_contexts (s : State) (code : StatusCode) : (s.raise code).contexts = 
    s.contexts.modify s.cur fun c => { c with status := statusAfterFault code } := rfl
@[simp] theorem State.raise_cur (s : State) (code : StatusCode) : (s.raise code).cur = s.cur := rfl
@[simp] theorem State.raise_pending (s : State) (code : StatusCode) : (s.raise code).pending = s.pending := rfl
@[simp] theorem State.raise_returned (s : State) (code : StatusCode) : (s.raise code).returned = s.returned := rfl
@[simp] theorem State.raise_cap (s : State) (code : StatusCode) : (s.raise code).cap = s.cap := rfl
@[simp] theorem State.raise_sel32 (s : State) (code : StatusCode) : (s.raise code).sel32 = s.sel32 := rfl
@[simp] theorem State.raise_sel64 (s : State) (code : StatusCode) : (s.raise code).sel64 = s.sel64 := rfl
@[simp] theorem State.raise_mem (s : State) (code : StatusCode) : (s.raise code).mem = s.mem := rfl
@[simp] theorem State.raise_platform (s : State) (code : StatusCode) : (s.raise code).platform = s.platform := rfl
@[simp] theorem State.raise_refusalMark (s : State) (code : StatusCode) : (s.raise code).refusalMark = s.refusalMark := rfl

/-! ### beginAction -/

@[simp] theorem State.beginAction_contexts (s : State) (c : Nat) (rest : List HostAction) : (s.beginAction c rest).contexts = s.contexts := rfl
@[simp] theorem State.beginAction_cur (s : State) (c : Nat) (rest : List HostAction) : (s.beginAction c rest).cur = c := rfl
@[simp] theorem State.beginAction_pending (s : State) (c : Nat) (rest : List HostAction) : (s.beginAction c rest).pending = rest := rfl
@[simp] theorem State.beginAction_returned (s : State) (c : Nat) (rest : List HostAction) : (s.beginAction c rest).returned = s.returned := rfl
@[simp] theorem State.beginAction_cap (s : State) (c : Nat) (rest : List HostAction) : (s.beginAction c rest).cap = s.cap := rfl
@[simp] theorem State.beginAction_sel32 (s : State) (c : Nat) (rest : List HostAction) : (s.beginAction c rest).sel32 = s.sel32 := rfl
@[simp] theorem State.beginAction_sel64 (s : State) (c : Nat) (rest : List HostAction) : (s.beginAction c rest).sel64 = s.sel64 := rfl
@[simp] theorem State.beginAction_mem (s : State) (c : Nat) (rest : List HostAction) : (s.beginAction c rest).mem = s.mem := rfl
@[simp] theorem State.beginAction_platform (s : State) (c : Nat) (rest : List HostAction) : (s.beginAction c rest).platform = s.platform := rfl
@[simp] theorem State.beginAction_refusalMark (s : State) (c : Nat) (rest : List HostAction) : (s.beginAction c rest).refusalMark = s.refusalMark := rfl

/-! ### writeCmd -/

@[simp] theorem State.writeCmd_contexts (s : State) (w : Word32) : (s.writeCmd w).contexts = 
    s.contexts.modify s.cur fun c => { c with cmd := w } := rfl
@[simp] theorem State.writeCmd_cur (s : State) (w : Word32) : (s.writeCmd w).cur = s.cur := rfl
@[simp] theorem State.writeCmd_pending (s : State) (w : Word32) : (s.writeCmd w).pending = s.pending := rfl
@[simp] theorem State.writeCmd_returned (s : State) (w : Word32) : (s.writeCmd w).returned = s.returned := rfl
@[simp] theorem State.writeCmd_cap (s : State) (w : Word32) : (s.writeCmd w).cap = s.cap := rfl
@[simp] theorem State.writeCmd_sel32 (s : State) (w : Word32) : (s.writeCmd w).sel32 = s.sel32 := rfl
@[simp] theorem State.writeCmd_sel64 (s : State) (w : Word32) : (s.writeCmd w).sel64 = s.sel64 := rfl
@[simp] theorem State.writeCmd_mem (s : State) (w : Word32) : (s.writeCmd w).mem = s.mem := rfl
@[simp] theorem State.writeCmd_platform (s : State) (w : Word32) : (s.writeCmd w).platform = s.platform := rfl
@[simp] theorem State.writeCmd_refusalMark (s : State) (w : Word32) : (s.writeCmd w).refusalMark = s.refusalMark := rfl

/-! ### load -/

@[simp] theorem State.load_contexts (s : State) (c : Nat) (ops : List PortOp) : (s.load c ops).contexts = s.contexts := rfl
@[simp] theorem State.load_cur (s : State) (c : Nat) (ops : List PortOp) : (s.load c ops).cur = s.cur := rfl
@[simp] theorem State.load_pending (s : State) (c : Nat) (ops : List PortOp) : (s.load c ops).pending = s.pending ++ ops.map fun op => { ctx := c, op := op } := rfl
@[simp] theorem State.load_returned (s : State) (c : Nat) (ops : List PortOp) : (s.load c ops).returned = s.returned := rfl
@[simp] theorem State.load_cap (s : State) (c : Nat) (ops : List PortOp) : (s.load c ops).cap = s.cap := rfl
@[simp] theorem State.load_sel32 (s : State) (c : Nat) (ops : List PortOp) : (s.load c ops).sel32 = s.sel32 := rfl
@[simp] theorem State.load_sel64 (s : State) (c : Nat) (ops : List PortOp) : (s.load c ops).sel64 = s.sel64 := rfl
@[simp] theorem State.load_mem (s : State) (c : Nat) (ops : List PortOp) : (s.load c ops).mem = s.mem := rfl
@[simp] theorem State.load_platform (s : State) (c : Nat) (ops : List PortOp) : (s.load c ops).platform = s.platform := rfl
@[simp] theorem State.load_refusalMark (s : State) (c : Nat) (ops : List PortOp) : (s.load c ops).refusalMark = s.refusalMark := rfl

/-! ### withFetchWord -/

@[simp] theorem State.withFetchWord_contexts (s : State) (nbits w : Nat) : (s.withFetchWord nbits w).contexts = s.contexts := rfl
@[simp] theorem State.withFetchWord_cur (s : State) (nbits w : Nat) : (s.withFetchWord nbits w).cur = s.cur := rfl
@[simp] theorem State.withFetchWord_pending (s : State) (nbits w : Nat) : (s.withFetchWord nbits w).pending = 
    { ctx := s.cur, op := .issue (BitVec.ofNat 32 (w % 2 ^ nbits)) } :: s.pending := rfl
@[simp] theorem State.withFetchWord_returned (s : State) (nbits w : Nat) : (s.withFetchWord nbits w).returned = s.returned := rfl
@[simp] theorem State.withFetchWord_cap (s : State) (nbits w : Nat) : (s.withFetchWord nbits w).cap = s.cap := rfl
@[simp] theorem State.withFetchWord_sel32 (s : State) (nbits w : Nat) : (s.withFetchWord nbits w).sel32 = s.sel32 := rfl
@[simp] theorem State.withFetchWord_sel64 (s : State) (nbits w : Nat) : (s.withFetchWord nbits w).sel64 = s.sel64 := rfl
@[simp] theorem State.withFetchWord_mem (s : State) (nbits w : Nat) : (s.withFetchWord nbits w).mem = s.mem := rfl
@[simp] theorem State.withFetchWord_platform (s : State) (nbits w : Nat) : (s.withFetchWord nbits w).platform = s.platform := rfl
@[simp] theorem State.withFetchWord_refusalMark (s : State) (nbits w : Nat) : (s.withFetchWord nbits w).refusalMark = s.refusalMark := rfl

/-! ### detect -/

@[simp] theorem detect_contexts (s : State) : (detect s).contexts = s.contexts := by
  unfold detect; split <;> rfl
@[simp] theorem detect_cur (s : State) : (detect s).cur = s.cur := by
  unfold detect; split <;> rfl
@[simp] theorem detect_pending (s : State) : (detect s).pending = s.pending := by
  unfold detect; split <;> rfl
@[simp] theorem detect_returned (s : State) : (detect s).returned = s.returned := by
  unfold detect; split <;> rfl
@[simp] theorem detect_sel32 (s : State) : (detect s).sel32 = s.sel32 := by
  unfold detect; split <;> rfl
@[simp] theorem detect_sel64 (s : State) : (detect s).sel64 = s.sel64 := by
  unfold detect; split <;> rfl
@[simp] theorem detect_mem (s : State) : (detect s).mem = s.mem := by
  unfold detect; split <;> rfl
@[simp] theorem detect_platform (s : State) : (detect s).platform = s.platform := by
  unfold detect; split <;> rfl
@[simp] theorem detect_refusalMark (s : State) : (detect s).refusalMark = s.refusalMark := by
  unfold detect; split <;> rfl

/-- CAP after `detect()` is the returned Boolean (41_detect.md R133). -/
@[simp] theorem detect_cap (s : State) : (detect s).cap = capOf (detectValue s) := by
  unfold detect detectValue; split <;> simp_all [capOf]

/-! ### resolve32 -/

@[simp] theorem resolve32_contexts (s : State) : (resolve32 s).contexts = s.contexts := by
  unfold resolve32; split <;> simp
@[simp] theorem resolve32_cur (s : State) : (resolve32 s).cur = s.cur := by
  unfold resolve32; split <;> simp
@[simp] theorem resolve32_pending (s : State) : (resolve32 s).pending = s.pending := by
  unfold resolve32; split <;> simp
@[simp] theorem resolve32_returned (s : State) : (resolve32 s).returned = s.returned := by
  unfold resolve32; split <;> simp
@[simp] theorem resolve32_sel32 (s : State) : (resolve32 s).sel32 = resolved s.sel32 s := by
  unfold resolve32; split <;> simp_all [resolved]
@[simp] theorem resolve32_sel64 (s : State) : (resolve32 s).sel64 = s.sel64 := by
  unfold resolve32; split <;> simp
@[simp] theorem resolve32_mem (s : State) : (resolve32 s).mem = s.mem := by
  unfold resolve32; split <;> simp
@[simp] theorem resolve32_platform (s : State) : (resolve32 s).platform = s.platform := by
  unfold resolve32; split <;> simp
@[simp] theorem resolve32_refusalMark (s : State) : (resolve32 s).refusalMark = s.refusalMark := by
  unfold resolve32; split <;> simp

theorem resolve32_cap (s : State) :
    (resolve32 s).cap = if s.sel32 = .unresolved then (detect s).cap else s.cap := by
  unfold resolve32; split <;> simp_all

/-! ### resolve64 -/

@[simp] theorem resolve64_contexts (s : State) : (resolve64 s).contexts = s.contexts := by
  unfold resolve64; split <;> simp
@[simp] theorem resolve64_cur (s : State) : (resolve64 s).cur = s.cur := by
  unfold resolve64; split <;> simp
@[simp] theorem resolve64_pending (s : State) : (resolve64 s).pending = s.pending := by
  unfold resolve64; split <;> simp
@[simp] theorem resolve64_returned (s : State) : (resolve64 s).returned = s.returned := by
  unfold resolve64; split <;> simp
@[simp] theorem resolve64_sel32 (s : State) : (resolve64 s).sel32 = s.sel32 := by
  unfold resolve64; split <;> simp
@[simp] theorem resolve64_sel64 (s : State) : (resolve64 s).sel64 = resolved s.sel64 s := by
  unfold resolve64; split <;> simp_all [resolved]
@[simp] theorem resolve64_mem (s : State) : (resolve64 s).mem = s.mem := by
  unfold resolve64; split <;> simp
@[simp] theorem resolve64_platform (s : State) : (resolve64 s).platform = s.platform := by
  unfold resolve64; split <;> simp
@[simp] theorem resolve64_refusalMark (s : State) : (resolve64 s).refusalMark = s.refusalMark := by
  unfold resolve64; split <;> simp

theorem resolve64_cap (s : State) :
    (resolve64 s).cap = if s.sel64 = .unresolved then (detect s).cap else s.cap := by
  unfold resolve64; split <;> simp_all

/-! ### finish: what a command's ending leaves alone -/

@[simp] theorem State.finish_cur (s : State) (buf : Except StatusCode (List Byte)) (value : List Byte → Word) :
    (s.finish buf value).cur = s.cur := by
  cases buf <;> rfl
@[simp] theorem State.finish_pending (s : State) (buf : Except StatusCode (List Byte)) (value : List Byte → Word) :
    (s.finish buf value).pending = s.pending := by
  cases buf <;> rfl
@[simp] theorem State.finish_returned (s : State) (buf : Except StatusCode (List Byte)) (value : List Byte → Word) :
    (s.finish buf value).returned = s.returned := by
  cases buf <;> rfl
@[simp] theorem State.finish_cap (s : State) (buf : Except StatusCode (List Byte)) (value : List Byte → Word) :
    (s.finish buf value).cap = s.cap := by
  cases buf <;> rfl
@[simp] theorem State.finish_sel32 (s : State) (buf : Except StatusCode (List Byte)) (value : List Byte → Word) :
    (s.finish buf value).sel32 = s.sel32 := by
  cases buf <;> rfl
@[simp] theorem State.finish_sel64 (s : State) (buf : Except StatusCode (List Byte)) (value : List Byte → Word) :
    (s.finish buf value).sel64 = s.sel64 := by
  cases buf <;> rfl
@[simp] theorem State.finish_mem (s : State) (buf : Except StatusCode (List Byte)) (value : List Byte → Word) :
    (s.finish buf value).mem = s.mem := by
  cases buf <;> rfl
@[simp] theorem State.finish_platform (s : State) (buf : Except StatusCode (List Byte)) (value : List Byte → Word) :
    (s.finish buf value).platform = s.platform := by
  cases buf <;> rfl
@[simp] theorem State.finish_refusalMark (s : State) (buf : Except StatusCode (List Byte)) (value : List Byte → Word) :
    (s.finish buf value).refusalMark = s.refusalMark := by
  cases buf <;> rfl

end Sys2Proof.Machine
end

