-- ==== Sys2Proof/Laws/Ops.lean ====
section
/-! SUPPORT. What each shared operation can do: STATUS words, the issuing context, the endings of a command, and the buffer
check. -/

namespace Sys2Proof.Machine

/-! ### STATUS (10_state.md R26) -/

@[simp] theorem statusCode_packStatus (f : Bool) (c : StatusCode) : statusCode (packStatus f c) = c.number := by
  cases f <;> cases c <;> decide

@[simp] theorem statusFault_packStatus (f : Bool) (c : StatusCode) : statusFault (packStatus f c) = f := by
  cases f <;> cases c <;> decide

@[simp] theorem statusReserved_packStatus (f : Bool) (c : StatusCode) : statusReserved (packStatus f c) = 0 := by
  cases f <;> cases c <;> decide

@[simp] theorem statusCode_afterOk (w : Word32) : statusCode (statusAfterOk w) = 0 := by
  simp [statusAfterOk, StatusCode.number]

@[simp] theorem statusFault_afterOk (w : Word32) : statusFault (statusAfterOk w) = statusFault w := by
  simp [statusAfterOk]

@[simp] theorem statusCode_afterFault (c : StatusCode) : statusCode (statusAfterFault c) = c.number := by
  simp [statusAfterFault]

@[simp] theorem statusFault_afterFault (c : StatusCode) : statusFault (statusAfterFault c) = true := by
  simp [statusAfterFault]

theorem statusLegal_afterOk (w : Word32) : statusLegal (statusAfterOk w) = true := by
  simp [statusLegal, statusAfterOk, StatusCode.number]

theorem statusLegal_afterFault (c : StatusCode) : statusLegal (statusAfterFault c) = true := by
  cases c <;> decide

/-- The eight codes are different numbers (60_exceptions.md R220). -/
theorem StatusCode.number_injective {c d : StatusCode} (h : c.number = d.number) : c = d := by
  cases c <;> cases d <;> first | rfl | (exact absurd h (by decide))

/-! ### The issuing context -/

theorem withContext_of_some {s : State} {c : Context} (act : Context → State) (h : s.contexts[s.cur]? = some c) :
    withContext s act = .next (act c) := by
  simp [withContext, h]

theorem withContext_of_none {s : State} (act : Context → State) (h : s.contexts[s.cur]? = none) :
    withContext s act = .fault .noSuchContext := by
  simp [withContext, h]

/-- An action of a context answers a next state exactly when the context exists. -/
theorem withContext_next {s t : State} {act : Context → State} :
    withContext s act = .next t ↔ ∃ c, s.contexts[s.cur]? = some c ∧ t = act c := by
  cases h : s.contexts[s.cur]? with
  | none => simp [withContext_of_none act h]
  | some c => simp [withContext_of_some act h, eq_comm]

/-- The issuing context after a change of its registers. -/
theorem State.modifyCur_getElem_cur {s : State} {c : Context} (f : Context → Context)
    (h : s.contexts[s.cur]? = some c) : (s.modifyCur f).contexts[s.cur]? = some (f c) := by
  simp [h]

/-- The other contexts after a change of the issuing context's registers (10_state.md R37). -/
theorem State.modifyCur_getElem_ne {s : State} {d : Nat} (f : Context → Context) (h : d ≠ s.cur) :
    (s.modifyCur f).contexts[d]? = s.contexts[d]? := by
  simp [Ne.symm h]

/-- A change of the issuing context's registers as a replacement of its entry. -/
theorem State.modifyCur_contexts_eq_set {s : State} {c : Context} (f : Context → Context)
    (h : s.contexts[s.cur]? = some c) : (s.modifyCur f).contexts = s.contexts.set s.cur (f c) := by
  apply List.ext_getElem?
  intro d
  by_cases hd : d = s.cur
  · subst hd
    obtain ⟨hlt, hc⟩ := List.getElem?_eq_some_iff.1 h
    simp [hlt, hc]
  · rw [State.modifyCur_getElem_ne f hd, List.getElem?_set_ne (Ne.symm hd)]

@[simp] theorem State.modifyCur_contexts_length (s : State) (f : Context → Context) :
    (s.modifyCur f).contexts.length = s.contexts.length := by
  simp

/-- A change that keeps a property of the issuing context keeps it of every context. -/
theorem State.modifyCur_forall {s : State} {f : Context → Context} {p : Context → Prop}
    (hs : ∀ c ∈ s.contexts, p c) (hf : ∀ c, p (f c)) : ∀ c ∈ (s.modifyCur f).contexts, p c := by
  intro c hc
  obtain ⟨d, hd⟩ := List.mem_iff_getElem?.1 hc
  by_cases h : d = s.cur
  · subst h
    simp only [State.modifyCur_contexts, List.getElem?_modify, ↓reduceIte, Option.map_eq_map, Option.map_eq_some_iff] at hd
    obtain ⟨c0, -, rfl⟩ := hd
    exact hf c0
  · rw [State.modifyCur_getElem_ne f h] at hd
    exact hs c (List.mem_of_getElem? hd)

/-! ### The buffer check (20_memory.md R52, R54) -/

/-- RANGE: the buffer passes the top of the address space. -/
theorem fetchBuffer_range {m : Memory} {a n : Nat} (h : a + n > 2 ^ 64) : fetchBuffer m a n = .error .range := by
  simp only [fetchBuffer, if_pos h]

/-- MEMORY: some byte of the buffer is not readable. -/
theorem fetchBuffer_memory {m : Memory} {a n : Nat} (h : a + n ≤ 2 ^ 64) (hu : m.unreadableIn a n) :
    fetchBuffer m a n = .error .memory := by
  simp only [fetchBuffer, if_neg (Nat.not_lt.2 h), Memory.bytes_eq_none_iff.2 hu]

/-- A well-formed buffer gives its bytes. -/
theorem fetchBuffer_ok {m : Memory} {a : Nat} {b : List Byte} (h : a + b.length ≤ 2 ^ 64) (hb : m.holds a b) :
    fetchBuffer m a b.length = .ok b := by
  simp only [fetchBuffer, if_neg (Nat.not_lt.2 h), Memory.bytes_of_holds hb]

/-- The three cases of the buffer check. -/
theorem fetchBuffer_cases (m : Memory) (a n : Nat) :
    (a + n > 2 ^ 64 ∧ fetchBuffer m a n = .error .range) ∨
    (a + n ≤ 2 ^ 64 ∧ m.unreadableIn a n ∧ fetchBuffer m a n = .error .memory) ∨
    (a + n ≤ 2 ^ 64 ∧ ∃ b : List Byte, b.length = n ∧ m.holds a b ∧ fetchBuffer m a n = .ok b) := by
  by_cases h : a + n > 2 ^ 64
  · exact .inl ⟨h, fetchBuffer_range h⟩
  · have h := Nat.not_lt.1 h
    cases hb : m.bytes a n with
    | none =>
      have hu := Memory.bytes_eq_none_iff.1 hb
      exact .inr (.inl ⟨h, hu, fetchBuffer_memory h hu⟩)
    | some b =>
      obtain ⟨hl, hold⟩ := Memory.holds_of_bytes hb
      subst hl
      exact .inr (.inr ⟨h, b, rfl, hold, fetchBuffer_ok h hold⟩)

/-- A command's ending is one of the two endings. -/
theorem State.finish_cases (s : State) (m : Memory) (a n : Nat) (value : List Byte → Word) :
    (∃ v, s.finish (fetchBuffer m a n) value = s.complete v) ∨
    s.finish (fetchBuffer m a n) value = s.raise .range ∨ s.finish (fetchBuffer m a n) value = s.raise .memory := by
  rcases fetchBuffer_cases m a n with ⟨-, h⟩ | ⟨-, -, h⟩ | ⟨-, b, -, -, h⟩
  · exact .inr (.inl (by rw [h]; rfl))
  · exact .inr (.inr (by rw [h]; rfl))
  · exact .inl ⟨value b, by rw [h]; rfl⟩

end Sys2Proof.Machine
end

