-- ==== Sys2Proof/Laws/Exec.lean ====
section
/-! SUPPORT. What a command can do, said once for all seven: it fills cells, sets the mark, and ends in one of the two
endings. -/

namespace Sys2Proof.Machine

/-- What happens before a command's ending: CAP may be filled with the detected value, SEL32 and SEL64 with the backend it
stands for, and the refusal mark set; nothing else changes. -/
structure Prepared (s p : State) : Prop where
  contexts : p.contexts = s.contexts
  cur : p.cur = s.cur
  pending : p.pending = s.pending
  returned : p.returned = s.returned
  mem : p.mem = s.mem
  platform : p.platform = s.platform
  mark : s.refusalMark = true → p.refusalMark = true
  cap : p.cap = s.cap ∨ p.cap = (detect s).cap
  sel32 : p.sel32 = s.sel32 ∨
    (s.sel32 = .unresolved ∧ p.sel32 = backendOf (detectValue s) ∧ p.cap = (detect s).cap)
  sel64 : p.sel64 = s.sel64 ∨
    (s.sel64 = .unresolved ∧ p.sel64 = backendOf (detectValue s) ∧ p.cap = (detect s).cap)

theorem detectValue_readOperands (s : State) (c : Context) : detectValue (s.readOperands c) = detectValue s := rfl

theorem detect_readOperands_cap (s : State) (c : Context) : (detect (s.readOperands c)).cap = (detect s).cap := by
  simp [detectValue_readOperands]

theorem Prepared.refl (s : State) : Prepared s s :=
  ⟨rfl, rfl, rfl, rfl, rfl, rfl, id, .inl rfl, .inl rfl, .inl rfl⟩

theorem Prepared.readOperands (s : State) (c : Context) : Prepared s (s.readOperands c) :=
  ⟨rfl, rfl, rfl, rfl, rfl, rfl, fun h => by simp [h], .inl rfl, .inl rfl, .inl rfl⟩

theorem Prepared.detect_readOperands (s : State) (c : Context) : Prepared s (detect (s.readOperands c)) := by
  constructor <;> simp +contextual [detectValue_readOperands]

theorem Prepared.detect (s : State) : Prepared s (detect s) := by
  constructor <;> simp +contextual

theorem Prepared.resolve32 (s : State) (c : Context) : Prepared s (resolve32 (s.readOperands c)) := by
  constructor <;> try simp +contextual
  · rw [resolve32_cap]
    split <;> simp [detectValue_readOperands]
  · cases h : s.sel32 <;> simp [resolved, resolve32_cap, h, detectValue_readOperands]

theorem Prepared.resolve64 (s : State) (c : Context) : Prepared s (resolve64 (s.readOperands c)) := by
  constructor <;> try simp +contextual
  · rw [resolve64_cap]
    split <;> simp [detectValue_readOperands]
  · cases h : s.sel64 <;> simp [resolved, resolve64_cap, h, detectValue_readOperands]

/-- A command of an existing context prepares, then completes or faults. -/
theorem exec_next {i : Instr} {s t : State} (h : exec i s = .next t) :
    ∃ c p, s.contexts[s.cur]? = some c ∧ Prepared s p ∧
      ((∃ v, t = p.complete v) ∨ ∃ code, code ≠ .ok ∧ t = p.raise code) := by
  have ending : ∀ (p : State) (m : Memory) (a n : Nat) (value : List Byte → Word),
      (∃ v, p.finish (fetchBuffer m a n) value = p.complete v) ∨
        ∃ code, code ≠ .ok ∧ p.finish (fetchBuffer m a n) value = p.raise code := by
    intro p m a n value
    rcases p.finish_cases m a n value with h | h | h
    · exact .inl h
    · exact .inr ⟨.range, by decide, h⟩
    · exact .inr ⟨.memory, by decide, h⟩
  have fold : ∀ value, foldCommand s value = .next t →
      ∃ c p, s.contexts[s.cur]? = some c ∧ Prepared s p ∧
        ((∃ v, t = p.complete v) ∨ ∃ code, code ≠ .ok ∧ t = p.raise code) := by
    intro value h
    obtain ⟨c, hc, rfl⟩ := withContext_next.1 h
    dsimp only
    split
    · rename_i code hcode
      refine ⟨c, _, hc, .readOperands s c, .inr ⟨code, ?_, rfl⟩⟩
      unfold foldContract at hcode
      split at hcode
      · cases hcode; decide
      · split at hcode
        · cases hcode; decide
        · split at hcode <;> cases hcode
          decide
    · split
      · exact ⟨c, _, hc, .detect_readOperands s c, ending ..⟩
      · exact ⟨c, _, hc, .detect_readOperands s c, .inr ⟨.noAccel, by decide, rfl⟩⟩
  cases i with
  | crc32 =>
    obtain ⟨c, hc, rfl⟩ := withContext_next.1 h
    exact ⟨c, _, hc, .resolve32 s c, ending ..⟩
  | crc64 =>
    obtain ⟨c, hc, rfl⟩ := withContext_next.1 h
    exact ⟨c, _, hc, .resolve64 s c, ending ..⟩
  | gen32 =>
    obtain ⟨c, hc, rfl⟩ := withContext_next.1 h
    exact ⟨c, _, hc, .readOperands s c, ending ..⟩
  | gen64 =>
    obtain ⟨c, hc, rfl⟩ := withContext_next.1 h
    exact ⟨c, _, hc, .readOperands s c, ending ..⟩
  | fold32 => exact fold _ h
  | fold64 => exact fold _ h
  | detect =>
    obtain ⟨c, hc, rfl⟩ := withContext_next.1 h
    exact ⟨c, _, hc, .detect s, .inl ⟨_, rfl⟩⟩

/-- A command stops only where its context does not exist. -/
theorem exec_of_some {s : State} {c : Context} (i : Instr) (h : s.contexts[s.cur]? = some c) :
    ∃ t, exec i s = .next t := by
  cases i <;> exact ⟨_, withContext_of_some _ h⟩

/-- What one step can do (10_state.md R21): nothing, a port operation, a store, a command, or a decode fault. -/
theorem step_next {s t : State} (h : step s = .next t) :
    (s.pending = [] ∧ t = s) ∨
    ∃ act rest p, s.pending = act :: rest ∧ p = s.beginAction act.ctx rest ∧
      ((∃ r v c, act.op = .set r v ∧ p.contexts[p.cur]? = some c ∧ t = p.modifyCur fun c => c.setOperand r v) ∨
       (∃ c, act.op = .movCrcinResult ∧ p.contexts[p.cur]? = some c ∧
          t = (p.markUnless c.result.held).modifyCur fun c => { c with crcin := .written c.result.value }) ∨
       (∃ r c, act.op = .read r ∧ p.contexts[p.cur]? = some c ∧
          t = { p.markUnless (c.readHeld r) with
                  returned := { ctx := p.cur, reg := r, value := c.readValue r } :: p.returned }) ∨
       (∃ a b c, act.op = .store a b ∧ p.contexts[p.cur]? = some c ∧ t = { p with mem := p.mem.write a.toNat b }) ∨
       (∃ w i, act.op = .issue w ∧ decode w = .ok i ∧ exec i (p.writeCmd w) = .next t) ∨
       (∃ w f c, act.op = .issue w ∧ decode w = .error f ∧ (p.writeCmd w).contexts[p.cur]? = some c ∧
          t = (p.writeCmd w).raise (decodeStatus f))) := by
  simp only [step, nextAction] at h
  split at h
  · rename_i hp
    exact .inl ⟨hp, by cases h; rfl⟩
  · rename_i act rest hp
    refine .inr ⟨act, rest, _, hp, rfl, ?_⟩
    obtain ⟨ctx, op⟩ := act
    cases op with
    | set r v =>
      obtain ⟨c, hc, rfl⟩ := withContext_next.1 h
      exact .inl ⟨r, v, c, rfl, hc, rfl⟩
    | movCrcinResult =>
      obtain ⟨c, hc, rfl⟩ := withContext_next.1 h
      exact .inr (.inl ⟨c, rfl, hc, rfl⟩)
    | read r =>
      obtain ⟨c, hc, rfl⟩ := withContext_next.1 h
      exact .inr (.inr (.inl ⟨r, c, rfl, hc, rfl⟩))
    | store a b =>
      obtain ⟨c, hc, rfl⟩ := withContext_next.1 h
      exact .inr (.inr (.inr (.inl ⟨a, b, c, rfl, hc, rfl⟩)))
    | issue w =>
      simp only [portAction, issue] at h
      split at h
      · rename_i i hd
        exact .inr (.inr (.inr (.inr (.inl ⟨w, i, rfl, hd, h⟩))))
      · rename_i f hd
        obtain ⟨c, hc, rfl⟩ := withContext_next.1 h
        exact .inr (.inr (.inr (.inr (.inr ⟨w, f, c, rfl, hd, hc, rfl⟩))))

end Sys2Proof.Machine
end

