-- ==== Sys2Proof/Laws/Gf2.lean ====
section
/-! SUPPORT. Numbers as polynomials over GF(2) (00_scope.md R15): XOR is addition, a left shift is a power of x, `clmul` is the
product, and `pmod` and `pdiv` are remainder and quotient. -/

namespace Sys2Proof.Machine

open Polynomial

/-- The polynomial a number stands for: `sum over i of a[i] * x^i` (R15). -/
noncomputable def toPoly (a : Nat) : (ZMod 2)[X] :=
  ∑ i ∈ Finset.range (a.log2 + 1), if a.testBit i then X ^ i else 0

theorem testBit_eq_false_of_log2_lt {a i : Nat} (h : a.log2 < i) : a.testBit i = false :=
  Nat.testBit_lt_two_pow (Nat.lt_of_lt_of_le Nat.lt_log2_self (Nat.pow_le_pow_right (by decide) h))

theorem toPoly_coeff (a i : Nat) : (toPoly a).coeff i = if a.testBit i then 1 else 0 := by
  have key : ∀ j, (if a.testBit j then (X : (ZMod 2)[X]) ^ j else 0).coeff i =
      if j = i then (if a.testBit i then 1 else 0) else 0 := by
    intro j
    by_cases hj : j = i
    · subst hj; split <;> simp
    · split <;> simp [coeff_X_pow, Ne.symm hj]
  rw [toPoly, finsetSum_coeff]
  simp only [key, Finset.sum_ite_eq', Finset.mem_range]
  split
  · rfl
  · rw [testBit_eq_false_of_log2_lt (by omega)]; rfl

theorem toPoly_injective {a b : Nat} (h : toPoly a = toPoly b) : a = b := by
  apply Nat.eq_of_testBit_eq
  intro i
  have hi := congrArg (fun p => coeff p i) h
  simp only [toPoly_coeff] at hi
  cases ha : a.testBit i <;> cases hb : b.testBit i <;> simp_all

@[simp] theorem toPoly_zero : toPoly 0 = 0 := by
  ext i; simp [toPoly_coeff]

@[simp] theorem toPoly_xor (a b : Nat) : toPoly (a ^^^ b) = toPoly a + toPoly b := by
  ext i
  simp only [toPoly_coeff, coeff_add, Nat.testBit_xor]
  cases a.testBit i <;> cases b.testBit i <;> simp
  exact (by decide : (0 : ZMod 2) = 1 + 1)

@[simp] theorem toPoly_shiftLeft (a k : Nat) : toPoly (a <<< k) = toPoly a * X ^ k := by
  ext i
  rw [toPoly_coeff, coeff_mul_X_pow', toPoly_coeff, Nat.testBit_shiftLeft]
  by_cases h : k ≤ i <;> simp [h]

@[simp] theorem toPoly_two_pow (k : Nat) : toPoly (2 ^ k) = X ^ k := by
  ext i
  simp [toPoly_coeff, coeff_X_pow, Nat.testBit_two_pow, eq_comm]

@[simp] theorem toPoly_one : toPoly 1 = 1 := by simpa using toPoly_two_pow 0

/-! ### The carry-less product -/

theorem toPoly_clmulBits (a b k : Nat) : toPoly (clmulBits a b k) = toPoly a * toPoly (b % 2 ^ k) := by
  induction k with
  | zero => simp [clmulBits, Nat.mod_one]
  | succ k ih =>
    have hb : b % 2 ^ (k + 1) = (b % 2 ^ k) ^^^ (if b.testBit k then 2 ^ k else 0) := by
      apply Nat.eq_of_testBit_eq
      intro i
      rw [Nat.testBit_xor, Nat.testBit_mod_two_pow, Nat.testBit_mod_two_pow]
      by_cases hik : i = k
      · subst hik
        split <;> simp_all
      · have : (if b.testBit k then 2 ^ k else 0).testBit i = false := by
          split
          · simp [Ne.symm hik]
          · simp
        rw [this, Bool.xor_false]
        congr 1
        exact decide_eq_decide.2 (by omega)
    rw [clmulBits, toPoly_xor, ih, hb, toPoly_xor, mul_add]
    congr 1
    split <;> simp

/-- `clmul` is the product of polynomials (R15). -/
@[simp] theorem toPoly_clmul (a b : Nat) : toPoly (clmul a b) = toPoly a * toPoly b := by
  rw [clmul, toPoly_clmulBits, Nat.mod_eq_of_lt Nat.lt_log2_self]

/-! ### Degrees -/

/-- A number below `2^k` is a polynomial of degree below `k`. -/
theorem toPoly_degree_lt_iff {a k : Nat} : (toPoly a).degree < k ↔ a < 2 ^ k := by
  rw [degree_lt_iff_coeff_zero]
  constructor
  · intro h
    apply Nat.lt_pow_two_of_testBit
    intro i hi
    have hi := h i hi
    rw [toPoly_coeff] at hi
    cases ha : a.testBit i <;> simp_all
  · intro h m hm
    rw [toPoly_coeff, Nat.testBit_lt_two_pow (Nat.lt_of_lt_of_le h (Nat.pow_le_pow_right (by decide) hm))]
    rfl

theorem toPoly_ne_zero {a : Nat} (h : a ≠ 0) : toPoly a ≠ 0 := fun hz => h (toPoly_injective (by simpa using hz))

theorem toPoly_natDegree {a : Nat} (h : a ≠ 0) : (toPoly a).natDegree = a.log2 := by
  have hlt : (toPoly a).natDegree < a.log2 + 1 :=
    (natDegree_lt_iff_degree_lt (toPoly_ne_zero h)).2 (toPoly_degree_lt_iff.2 Nat.lt_log2_self)
  have hle : a.log2 ≤ (toPoly a).natDegree := by
    apply le_natDegree_of_ne_zero
    rw [toPoly_coeff, Nat.testBit_log2 h]
    simp
  omega

/-- Over GF(2) every nonzero polynomial is monic. -/
theorem toPoly_monic {a : Nat} (h : a ≠ 0) : (toPoly a).Monic := by
  rw [Monic, leadingCoeff, toPoly_natDegree h, toPoly_coeff, Nat.testBit_log2 h]
  rfl

/-! ### Remainder and quotient -/

/-- Long division gives `a = g * quotient + remainder`. -/
theorem toPoly_polyDivBits (g d k a : Nat) :
    toPoly g * toPoly (polyDivBits g d k a).1 + toPoly (polyDivBits g d k a).2 = toPoly a := by
  induction k generalizing a with
  | zero => simp [polyDivBits]
  | succ k ih =>
    rw [polyDivBits]
    split
    · have ih := ih (a ^^^ g <<< k)
      simp only [toPoly_xor, toPoly_shiftLeft, toPoly_one, one_mul, mul_add] at ih ⊢
      rw [add_assoc, ih, add_comm (toPoly a), ← add_assoc, CharTwo.add_self_eq_zero, zero_add]
    · exact ih a

/-- The remainder is below the divisor's degree. -/
theorem polyDivBits_lt {g d k a : Nat} (hg : g < 2 ^ (d + 1)) (hd : g.testBit d = true) (ha : a < 2 ^ (d + k)) :
    (polyDivBits g d k a).2 < 2 ^ d := by
  induction k generalizing a with
  | zero => simpa [polyDivBits] using ha
  | succ k ih =>
    rw [polyDivBits]
    split
    · rename_i hbit
      apply ih
      apply Nat.lt_pow_two_of_testBit
      intro i hi
      rw [Nat.testBit_xor, Nat.testBit_shiftLeft]
      by_cases hik : i = d + k
      · subst hik
        simp [hbit, hd]
      · rw [Nat.testBit_lt_two_pow (Nat.lt_of_lt_of_le ha (Nat.pow_le_pow_right (by decide) (by omega))),
          Nat.testBit_lt_two_pow (Nat.lt_of_lt_of_le hg (Nat.pow_le_pow_right (by decide) (by omega)))]
        simp
    · rename_i hbit
      apply ih
      apply Nat.lt_pow_two_of_testBit
      intro i hi
      by_cases hik : i = d + k
      · subst hik; simpa using hbit
      · exact Nat.testBit_lt_two_pow (Nat.lt_of_lt_of_le ha (Nat.pow_le_pow_right (by decide) (by omega)))

/-- `pmod` is below the divisor's degree (R15). -/
theorem pmod_lt {a g : Nat} (hg : g ≠ 0) : pmod a g < 2 ^ g.log2 := by
  apply polyDivBits_lt Nat.lt_log2_self (Nat.testBit_log2 hg)
  exact Nat.lt_of_lt_of_le Nat.lt_log2_self (Nat.pow_le_pow_right (by decide) (by simp only [polyDeg]; omega))

theorem pmod_pdiv (a g : Nat) : toPoly g * toPoly (pdiv a g) + toPoly (pmod a g) = toPoly a :=
  toPoly_polyDivBits ..

theorem toPoly_pmod_degree_lt {a g : Nat} (hg : g ≠ 0) : (toPoly (pmod a g)).degree < (toPoly g).degree := by
  rw [degree_eq_natDegree (toPoly_ne_zero hg), toPoly_natDegree hg]
  exact toPoly_degree_lt_iff.2 (pmod_lt hg)

/-- `pmod` is the remainder of polynomials (R15). -/
theorem toPoly_pmod {a g : Nat} (hg : g ≠ 0) : toPoly (pmod a g) = toPoly a %ₘ toPoly g :=
  ((div_modByMonic_unique (toPoly (pdiv a g)) (toPoly (pmod a g)) (toPoly_monic hg)
    ⟨by rw [add_comm]; exact pmod_pdiv a g, toPoly_pmod_degree_lt hg⟩).2).symm

/-- `pdiv` is the quotient of polynomials (R15). -/
theorem toPoly_pdiv {a g : Nat} (hg : g ≠ 0) : toPoly (pdiv a g) = toPoly a /ₘ toPoly g :=
  ((div_modByMonic_unique (toPoly (pdiv a g)) (toPoly (pmod a g)) (toPoly_monic hg)
    ⟨by rw [add_comm]; exact pmod_pdiv a g, toPoly_pmod_degree_lt hg⟩).1).symm

/-- Equal remainders are congruence modulo the divisor. -/
theorem pmod_eq_iff {a b g : Nat} (hg : g ≠ 0) : pmod a g = pmod b g ↔ toPoly g ∣ toPoly a - toPoly b := by
  constructor
  · intro h
    have h1 := pmod_pdiv a g
    have h2 := pmod_pdiv b g
    rw [h] at h1
    exact ⟨toPoly (pdiv a g) - toPoly (pdiv b g), by rw [← h1, ← h2]; ring⟩
  · intro h
    apply toPoly_injective
    rw [toPoly_pmod hg, toPoly_pmod hg]
    exact modByMonic_eq_of_dvd_sub (toPoly_monic hg) h

/-! ### Reversal -/

/-- `rev_N(v)[i] = v[N - 1 - i]` (R15). -/
theorem revBits_testBit (n v i : Nat) : (revBits n v).testBit i = (decide (i < n) && v.testBit (n - 1 - i)) := by
  induction n generalizing v with
  | zero => simp [revBits]
  | succ n ih =>
    rw [revBits, Nat.testBit_or, ih, Nat.testBit_shiftLeft, Nat.testBit_shiftRight]
    have hb : ∀ j, (v.testBit 0).toNat.testBit j = (decide (j = 0) && v.testBit 0) := by
      intro j; cases v.testBit 0 <;> cases j <;> simp [Nat.testBit_succ]
    rw [hb]
    by_cases h1 : i < n
    · have e : 1 + (n - 1 - i) = n + 1 - 1 - i := by omega
      have h2 : ¬ n ≤ i := by omega
      have h3 : i < n + 1 := by omega
      simp [h1, h2, h3, e]
    · by_cases h2 : i = n
      · subst h2; simp
      · have h3 : ¬ i < n + 1 := by omega
        have h4 : i - n ≠ 0 := by omega
        simp [h1, h3, h4]

end Sys2Proof.Machine
end

