-- ==== Sys2Proof/Tests/Slice0.lean ====
section
/-! SUPPORT. Tests with expected values from the spec's own tables (95_test_vectors.md), the assembler's ill-formed lines, and
for every statement with hypotheses a concrete state and operands that meet them. -/

open Sys2Proof Sys2Proof.Machine Sys2Proof.Expected

namespace Sys2Proof.Tests

/-! ### Small states -/

/-- The bytes `0, 1, …, n - 1` (`range(n)` of 95_test_vectors.md). -/
def range (n : Nat) : List Byte := (List.range n).map (BitVec.ofNat 8)

/-- The memory in canonical form in which exactly the bytes `b` at `a` are readable. -/
def memAt (a : Nat) (b : List Byte) : Memory :=
  { regions := [{ first := a, size := b.length }],
    cells := ((List.range b.length).zip b).foldr (fun x cells => consCell (a + x.1) x.2 cells) [] }

/-- A memory in which no address is readable. -/
def noMem : Memory := { regions := [], cells := [] }

/-- A context whose operand registers were written. -/
def ctx (a n c : Word) : Context :=
  { Context.reset with addr := .written a, len := .written n, crcin := .written c }

/-- Two contexts, the first with the registers `c`; the platform has all features if `accel`, else no query. -/
def state (accel : Bool) (c : Context) (m : Memory) : State :=
  { contexts := [c, Context.reset], cur := 0, pending := [], returned := [], cap := .unknown, sel32 := .unresolved,
    sel64 := .unresolved, mem := m, refusalMark := false,
    platform := { queryOk := accel, featA := true, featB := true, featC := true, nativeOrder := .le } }

/-- RESULT, STATUS, CAP, SEL32 and SEL64 after a command of context 0. -/
def after (i : Instr) (s : State) : Option (Word × Word32 × Cap × Sel × Sel) :=
  match exec i s with
  | .next t => t.contexts[0]?.map fun c => (c.result.value, c.status, t.cap, t.sel32, t.sel64)
  | .fault _ => none
  | .refused _ => none

/-! ### Decoding (V45, R72) -/

theorem test_decode_crc32 : decode 0b00000000000000000000000000000001 = .ok .crc32 := by decide
theorem test_decode_crc64 : decode 0b00000000000000000000000000000010 = .ok .crc64 := by decide
theorem test_decode_gen32 : decode 0b00000000000000000000000000010001 = .ok .gen32 := by decide
theorem test_decode_gen64 : decode 0b00000000000000000000000000010010 = .ok .gen64 := by decide
theorem test_decode_fold32 : decode 0b00000000000000000000000000100001 = .ok .fold32 := by decide
theorem test_decode_fold64 : decode 0b00000000000000000000000000100010 = .ok .fold64 := by decide
theorem test_decode_detect : decode 0b00000000000000000000000000110000 = .ok .detect := by decide
theorem test_decode_custom_space : decode 0x000000F1 = .error .illegalOpcode := by decide
theorem test_decode_opcode_before_reserved : decode 0xFFFFFFFF = .error .illegalOpcode := by decide
theorem test_decode_reserved : decode 0x80000030 = .error .reservedBits := by decide
theorem test_decodeTableWord : decodeTableWord 32 0x22 = some .fold64 := by decide

/-! ### Ill-formed lines (R79, R80, R82) -/

theorem test_wf_set_result : AsmLine.wf (.set .result 1) = false := by decide
theorem test_wf_set_status : AsmLine.wf (.set .status 1) = false := by decide
theorem test_wf_mov_addr : AsmLine.wf (.mov .addr .result) = false := by decide
theorem test_wf_mov_from_status : AsmLine.wf (.mov .crcin .status) = false := by decide
theorem test_wf_read_cmd : AsmLine.wf (.read .cmd) = false := by decide
theorem test_wf_call_detect : AsmLine.wf (.call .detect 0 0 0) = false := by decide
theorem test_wf_fresh_gen32 : AsmLine.wf (.fresh .gen32 0 0) = false := by decide
theorem test_wf_chain_fold64 : AsmLine.wf (.chain .fold64 0 0) = false := by decide
theorem test_text_pseudo : assembleText "crc32.new 0x1000, 9 ; fresh" =
    some [.set .addr 0x1000, .set .len 9, .set .crcin 0, .issue 0x00000001] := by decide +kernel
theorem test_text_refused : assembleText "set RESULT, 1" = none := by decide +kernel

/-! ### Datapaths (V9, V15, V16, V30, V31) -/

/-- Products, reversal and Barrett reduction. -/
theorem test_polynomials :
    clmul 0x87 0x87 = 0x4015 ∧
    revBits 32 0xEDB88320 = 0x04C11DB7 ∧
    barrett 32 fold32Mu fold32G 0xCE2D4ED1E899E64D = 0xAE819B76 := by
  decide +kernel
/-- Table entries and chunk steps. -/
theorem test_tables_and_chunks :
    table32 7 0xFF = 0x264B06E6 ∧
    table64 3 0x80 = 0xD6E9A7309F3239A7 ∧
    chunk32 0xFFFFFFFF 0x31 0x32 0x33 0x34 0x35 0x36 0x37 0x38 = 0x651F2550 ∧
    chunk64 0xFFFFFFFFFFFFFFFF 0x31 0x32 0x33 0x34 = 0x31B1786C99473CD7 := by
  decide +kernel
/-- The fold step, the reduction stages and the head of a split. -/
theorem test_fold_steps :
    foldStep fold32K1 fold32K2 0xFF7FBF3F20A060E0109050D030B070F0 ((range 32).drop 16) =
      0x088848C8655297E55BB74BC695CE3748 ∧
    reduceStage1 64 fold64K3 0x329A170C2A5330035719B0BF9D024562 =
      0x57F13EC27AA5E93D565EABEF5830AFDA ∧
    reduceStage2 fold32K4 0x5C59E597DB8673A97386B7BE = 0xCE2D4ED1E899E64D ∧
    [0x1003, 0x1000, 0x100F, 0x1001, 0x2008].map headLen = [13, 0, 1, 15, 8] := by
  decide +kernel

/-! ### Commands -/

/-- V40; then V44: resolution survives RANGE -/
theorem test_crc32 :
    after .crc32 (state true (ctx 0x1003 40 0) (memAt 0x1003 (range 40))) =
      some (0x0DA62E3C, 0, .yes, .accel, .unresolved) ∧
    after .crc32 (state true (ctx 0xFFFFFFFFFFFFFFFF 2 0) noMem) =
      some (0, 0x103, .yes, .accel, .unresolved) := by
  decide +kernel
/-- V41, on the accelerated route; then V44: resolution survives MEMORY -/
theorem test_crc64 :
    after .crc64 (state true (ctx 0x1003 40 0) (memAt 0x1003 (range 40))) =
      some (0x51288E796A755F20, 0, .yes, .unresolved, .accel) ∧
    after .crc64 (state false (ctx 0x1000 9 0) noMem) =
      some (0, 0x107, .no, .unresolved, .generic) := by
  decide +kernel
/-- V19: CRCIN[63:32] is ignored; then V20: RANGE comes before MEMORY -/
theorem test_gen32 :
    after .gen32 (state true (ctx 0x1000 1 0xDEADBEEF12345678) (memAt 0x1000 [0x61])) =
      some (0xB67B731B, 0, .unknown, .unresolved, .unresolved) ∧
    after .gen32 (state true (ctx 0xFFFFFFFFFFFFFFF0 0x20 0) noMem) =
      some (0, 0x103, .unknown, .unresolved, .unresolved) := by
  decide +kernel
/-- V2; then V20, V13: the last byte of the address space -/
theorem test_gen64 :
    after .gen64 (state true (ctx 0x1000 9 0) (memAt 0x1000 checkString)) =
      some (0x995DC9BBDF1939FA, 0, .unknown, .unresolved, .unresolved) ∧
    after .gen64 (state true (ctx 0xFFFFFFFFFFFFFFFF 1 0) (memAt 0xFFFFFFFFFFFFFFFF [0])) =
      some (0x1FADA17364673F59, 0, .unknown, .unresolved, .unresolved) := by
  decide +kernel
/-- V30; then V35: NO_ACCEL comes before MEMORY and fills CAP -/
theorem test_fold32 :
    after .fold32 (state true (ctx 0x1000 32 0) (memAt 0x1000 (range 32))) =
      some (0x91267E8A, 0, .yes, .unresolved, .unresolved) ∧
    after .fold32 (state false (ctx 0x1000 16 0) noMem) =
      some (0, 0x106, .no, .unresolved, .unresolved) := by
  decide +kernel
/-- V34; then V35: MISALIGNED comes before LENGTH and leaves CAP alone -/
theorem test_fold64 :
    after .fold64 (state true (ctx 0x4000 48 0x0123456789ABCDEF) (memAt 0x4000 (range 48))) =
      some (0xDF869FF791CCE45A, 0, .yes, .unresolved, .unresolved) ∧
    after .fold64 (state true (ctx 0x1008 24 0) noMem) =
      some (0, 0x104, .unknown, .unresolved, .unresolved) := by
  decide +kernel
/-- V25, row 5; then V25, row 1 -/
theorem test_detect :
    after .detect (state true Context.reset noMem) =
      some (1, 0, .yes, .unresolved, .unresolved) ∧
    after .detect (state false Context.reset noMem) =
      some (0, 0, .no, .unresolved, .unresolved) := by
  decide +kernel

/-! ### Steps -/

/-- What a step did to STATUS of context 0 and to the refusal mark. -/
def stepped (s : State) : Option (Word32 × Bool) :=
  match step s with
  | .next t => t.contexts[0]?.map fun c => (c.status, t.refusalMark)
  | .fault _ => none
  | .refused _ => none

/-- V45: a decode fault with no register written is a fault and sets no mark; then P6: `gen32` before its operands are written
sets the mark (assumption 2) -/
theorem test_step_after_reset :
    stepped (State.reset.withFetchWord 32 0x101) = some (0x102, false) ∧
    stepped (State.reset.withFetchWord 32 0x11) = some (0, true) := by
  decide +kernel
/-- P6: `read RESULT` before any command completed sets the mark; then P6: `detect` reads no operand register -/
theorem test_step_refusal_mark :
    stepped ((state true Context.reset noMem).load 0 [.read .result]) = some (0, true) ∧
    stepped ((state true Context.reset noMem).withFetchWord 32 0x30) = some (0, false) := by
  decide +kernel
/-- R67: a store changes the byte a command reads; to zero, to a new value, and at an address above all listed ones;
then R52, R67: a store does not make an address readable, so a later command still records MEMORY -/
theorem test_store :
    [(0x1000, 5), (0x1001, 0), (0x1002, 9)].foldl (fun m x => Memory.write m x.1 x.2)
      (memAt 0x1000 [7, 8, 0]) = memAt 0x1000 [5, 0, 9] ∧
    ((memAt 0x1000 [7]).write 0x1001 1).bytes 0x1000 2 = none := by
  decide +kernel

/-! ### Witnesses: states and operands that meet the hypotheses of each statement -/

/-- A waiting state of two contexts: context 1 is to issue `w`. -/
def issuing (w : Word32) : State :=
  { state true (ctx 0x1000 16 0) (memAt 0x1000 (range 16)) with pending := [⟨1, .issue w⟩, ⟨0, .read .status⟩] }

theorem witness_StepRunsTheDecodedCommand :
    (issuing 0x30).pending = ⟨1, .issue 0x30⟩ :: [⟨0, .read .status⟩] ∧ decode 0x30 = .ok .detect := ⟨rfl, by decide⟩

theorem witness_UndecodableWordRaisesItsFault :
    ((issuing 0).pending = ⟨1, .issue 0⟩ :: [⟨0, .read .status⟩] ∧
      (issuing 0).contexts[1]? = some Context.reset ∧ (0 : Word32) &&& 0xFF ∉ assigned) ∧
    ((issuing 0x101).pending = ⟨1, .issue 0x101⟩ :: [⟨0, .read .status⟩] ∧
      (issuing 0x101).contexts[1]? = some Context.reset ∧ (0x101 : Word32) &&& 0xFF ∈ assigned ∧
      (0x101 : Word32) >>> 8 ≠ 0) := by
  refine ⟨⟨rfl, rfl, by decide⟩, rfl, rfl, by decide, by decide⟩

theorem witness_IdleMachineKeepsItsState : State.reset.pending = [] := rfl

theorem witness_ActionOfAnAbsentContextStops :
    ({ state true (ctx 0 0 0) noMem with cur := 2 } : State).contexts[2]? = none := rfl

theorem witness_DetectionProcedureFillsTheCacheOnce :
    (withCells (state true (ctx 0 0 0) noMem) .yes .accel .unresolved).cap = .yes ∧
    (withCells (state true (ctx 0 0 0) noMem) .no .unresolved .unresolved).cap = .no ∧
    (state true (ctx 0 0 0) noMem).cap = .unknown := ⟨rfl, rfl, rfl⟩

theorem witness_DetectReturnsTheDetectedValue :
    (state true (ctx 0 0 0) noMem).contexts[(state true (ctx 0 0 0) noMem).cur]? = some (ctx 0 0 0) := rfl

/-- A state whose CAP is known, with a DETECT to come, from which one step runs on. -/
def known : State := withCells (issuing 0x30) .yes .accel .unresolved

theorem witness_CapabilityCacheIsStable : known.cap ≠ .unknown ∧ ∃ t, Sys2Proof.core.run 1 known = .next t :=
  ⟨by decide, _, rfl⟩

theorem witness_RacingDetectsAgree :
    (0 : Nat) ≠ 1 ∧ (issuing 0).contexts[0]? = some (ctx 0x1000 16 0) ∧ (issuing 0).contexts[1]? = some Context.reset :=
  ⟨by decide, rfl, rfl⟩

theorem witness_RawUpdateAndChecksumLaws :
    (range 8).length = checkString.tail.length ∧ 4 ≤ (range 4).length ∧ 8 ≤ (range 8).length := by decide

theorem witness_SliceByEightIsTheRawUpdateOfEightBytes :
    (0xCBCCCDCE : Word32) = 0xFFFFFFFF ^^^ ((0x34 : Byte) ++ (0x33 : Byte) ++ (0x32 : Byte) ++ (0x31 : Byte)) := by decide

theorem witness_SliceByFourIsTheRawUpdateOfFourBytes :
    (0xFFFFFFFFCBCCCDCE : Word) = 0xFFFFFFFFFFFFFFFF ^^^
      ((0x34 : Byte) ++ (0x33 : Byte) ++ (0x32 : Byte) ++ (0x31 : Byte)).setWidth 64 := by decide

theorem witness_GenericDatapathIsTheRawUpdate : (range 7).length < 8 ∧ (range 3).length < 4 := by decide

/-- One buffer command's three cases meet their hypotheses: RANGE one past the top, MEMORY with the second byte unreadable,
and a buffer that ends exactly at the top. -/
theorem witness_Gen32GivesTheChecksumOrItsFault :
    ((ctx 0xFFFFFFFFFFFFFFFF 2 0).addr.value.toNat + (ctx 0xFFFFFFFFFFFFFFFF 2 0).len.value.toNat > 2 ^ 64 ∧
      (state true (ctx 0xFFFFFFFFFFFFFFFF 2 0) noMem).contexts[0]? = some (ctx 0xFFFFFFFFFFFFFFFF 2 0)) ∧
    (0x1000 + 2 ≤ 2 ^ 64 ∧ (state true (ctx 0x1000 2 0) (memAt 0x1000 [7])).mem.unreadableIn 0x1000 2) ∧
    (0xFFFFFFFFFFFFFFFF + 1 ≤ 2 ^ 64 ∧
      (state true (ctx 0xFFFFFFFFFFFFFFFF 1 0) (memAt 0xFFFFFFFFFFFFFFFF [7])).mem.holds 0xFFFFFFFFFFFFFFFF [7]) := by
  refine ⟨⟨by decide, rfl⟩, ⟨by decide, 1, by decide, by decide⟩, by decide, ?_⟩
  intro i hi
  obtain rfl : i = 0 := by simpa using hi
  rfl

theorem witness_Gen64GivesTheChecksumOrItsFault :
    (state true (ctx 0x1000 0 5) noMem).contexts[0]? = some (ctx 0x1000 0 5) ∧ (ctx 0x1000 0 5).len.value.toNat = 0 ∧
    0x1000 + 0 ≤ 2 ^ 64 ∧ (state true (ctx 0x1000 0 5) noMem).mem.holds 0x1000 [] :=
  ⟨rfl, rfl, by decide, fun i hi => absurd hi (by simp)⟩

theorem witness_LanePolynomialCoefficients : (range 16).length = 16 ∧ (15 : Nat) < (range 16).length ∧ (7 : Nat) < 8 := by
  decide

theorem witness_FoldAccumulatorStaysCongruent : ∀ l ∈ range 16 :: [range 16], l.length = 16 := by decide

theorem witness_ReductionStagesKeepCongruence : 0xFFFFFFFF000000000000000000000000 < 2 ^ 128 := by decide

theorem witness_BarrettReductionIsExact : 0xFFFFFFFFFFFFFFFF < 2 ^ 64 ∧ 2 ^ 128 - 1 < 2 ^ 128 := by decide

theorem witness_FoldDatapathIsTheRawUpdate : range 16 ≠ [] ∧ (range 16).length % 16 = 0 := by decide

/-- A state whose buffer of 16 bytes at 0x1000 is readable. -/
def folding (accel : Bool) : State := state accel (ctx 0x1000 16 0) (memAt 0x1000 (range 16))

theorem holds_range16 (accel : Bool) : (folding accel).mem.holds 0x1000 (range 16) := by
  cases accel <;> (unfold Memory.holds; decide +kernel)

/-- Context 0 of `s` issues with `a` in ADDR and `n` in LEN. -/
def issues (s : State) (a n : Nat) : Prop :=
  ∃ c, s.contexts[s.cur]? = some c ∧ c.addr.value.toNat = a ∧ c.len.value.toNat = n

theorem issues_ctx (accel : Bool) (a n c : Word) (m : Memory) : issues (state accel (ctx a n c) m) a.toNat n.toNat :=
  ⟨_, rfl, rfl, rfl⟩

/-- What a state must meet for each of the five faults of a FOLD, each broken alone at the edge of its range: RANGE one lane
past the top, MISALIGNED ending at the top, LENGTH of half a lane over and of zero, NO_ACCEL, MEMORY with the last byte alone
unreadable. -/
def FoldFaultsMet : Prop :=
  (issues (state true (ctx 0xFFFFFFFFFFFFFFF0 32 0) noMem) 0xFFFFFFFFFFFFFFF0 32 ∧ 0xFFFFFFFFFFFFFFF0 + 32 > 2 ^ 64) ∧
  (issues (state true (ctx 0xFFFFFFFFFFFFFFF8 8 0) noMem) 0xFFFFFFFFFFFFFFF8 8 ∧
    0xFFFFFFFFFFFFFFF8 + 8 ≤ 2 ^ 64 ∧ 0xFFFFFFFFFFFFFFF8 % 16 ≠ 0) ∧
  (issues (state true (ctx 0x1000 24 0) noMem) 0x1000 24 ∧ 0x1000 + 24 ≤ 2 ^ 64 ∧ 0x1000 % 16 = 0 ∧ 24 % 16 ≠ 0) ∧
  (issues (state true (ctx 0x1000 0 0) noMem) 0x1000 0 ∧ 0x1000 + 0 ≤ 2 ^ 64 ∧ 0x1000 % 16 = 0 ∧ (0 % 16 ≠ 0 ∨ 0 = 0)) ∧
  (issues (state false (ctx 0xFFFFFFFFFFFFFFF0 16 0) noMem) 0xFFFFFFFFFFFFFFF0 16 ∧
    0xFFFFFFFFFFFFFFF0 + 16 ≤ 2 ^ 64 ∧ 0xFFFFFFFFFFFFFFF0 % 16 = 0 ∧ 16 % 16 = 0 ∧ 16 ≠ 0 ∧
    detected (state false (ctx 0xFFFFFFFFFFFFFFF0 16 0) noMem) = false) ∧
  (issues (state true (ctx 0x1000 16 0) (memAt 0x1000 (range 15))) 0x1000 16 ∧
    detected (state true (ctx 0x1000 16 0) (memAt 0x1000 (range 15))) = true ∧
    (state true (ctx 0x1000 16 0) (memAt 0x1000 (range 15))).mem.unreadableIn 0x1000 16)

theorem fold_faults_met : FoldFaultsMet :=
  ⟨⟨issues_ctx .., by decide⟩, ⟨issues_ctx .., by decide, by decide⟩, ⟨issues_ctx .., by decide, by decide, by decide⟩,
    ⟨issues_ctx .., by decide, by decide, by decide⟩,
    ⟨issues_ctx .., by decide, by decide, by decide, by decide, by decide⟩,
    issues_ctx .., by decide, 15, by decide, by decide +kernel⟩

theorem witness_Fold32ChecksItsContractThenGivesTheChecksum :
    FoldFaultsMet ∧ issues (folding true) 0x1000 16 ∧ 0x1000 + 16 ≤ 2 ^ 64 ∧ 0x1000 % 16 = 0 ∧ 16 % 16 = 0 ∧ 16 ≠ 0 ∧
    detected (folding true) = true ∧ (range 16).length = 16 ∧ (folding true).mem.holds 0x1000 (range 16) :=
  ⟨fold_faults_met, issues_ctx .., by decide, by decide, by decide, by decide, by decide, by decide, holds_range16 true⟩

theorem witness_Fold64ChecksItsContractThenGivesTheChecksum :
    FoldFaultsMet ∧ issues (folding true) 0x1000 16 ∧ 0x1000 + 16 ≤ 2 ^ 64 ∧ 0x1000 % 16 = 0 ∧ 16 % 16 = 0 ∧ 16 ≠ 0 ∧
    detected (folding true) = true ∧ (range 16).length = 16 ∧ (folding true).mem.holds 0x1000 (range 16) :=
  ⟨fold_faults_met, issues_ctx .., by decide, by decide, by decide, by decide, by decide, by decide, holds_range16 true⟩

theorem witness_SplitGivesAnAlignedBulkInsideTheBuffer :
    2 ^ 64 - 31 < 2 ^ 64 ∧ 31 ≤ 31 ∧ 2 ^ 64 - 31 + 31 ≤ 2 ^ 64 := by decide

theorem witness_ShortBuffersTakeTheGenericRoute : (range 30).length < 31 ∧ 0 < 2 ^ 64 ∧ 31 ≤ 31 := by decide

/-- What a state must meet for RANGE one byte past the top, and for MEMORY with the last byte alone unreadable. -/
def CrcFaultsMet : Prop :=
  (issues (state true (ctx 0xFFFFFFFFFFFFFFFF 2 0) noMem) 0xFFFFFFFFFFFFFFFF 2 ∧ 0xFFFFFFFFFFFFFFFF + 2 > 2 ^ 64) ∧
  (issues (state true (ctx 0x1003 16 0) (memAt 0x1003 (range 15))) 0x1003 16 ∧ 0x1003 + 16 ≤ 2 ^ 64 ∧
    (state true (ctx 0x1003 16 0) (memAt 0x1003 (range 15))).mem.unreadableIn 0x1003 16)

theorem crc_faults_met : CrcFaultsMet :=
  ⟨⟨issues_ctx .., by decide⟩, issues_ctx .., by decide, 15, by decide, by decide +kernel⟩

theorem witness_Crc32ResolvesThenGivesTheChecksumOrItsFault :
    CrcFaultsMet ∧ issues (folding false) 0x1000 16 ∧ 0x1000 + 16 ≤ 2 ^ 64 ∧ (range 16).length = 16 ∧
    (folding false).mem.holds 0x1000 (range 16) :=
  ⟨crc_faults_met, issues_ctx .., by decide, by decide, holds_range16 false⟩

theorem witness_Crc64ResolvesThenGivesTheChecksumOrItsFault :
    CrcFaultsMet ∧ issues (state true (ctx 0x1003 40 0) (memAt 0x1003 (range 40))) 0x1003 40 ∧ 0x1003 + 40 ≤ 2 ^ 64 ∧
    (range 40).length = 40 ∧ (state true (ctx 0x1003 40 0) (memAt 0x1003 (range 40))).mem.holds 0x1003 (range 40) := by
  refine ⟨crc_faults_met, issues_ctx .., by decide, by decide +kernel, ?_⟩
  unfold Memory.holds
  decide +kernel

theorem witness_BothRoutesGiveTheChecksum :
    0x1003 < 2 ^ 64 ∧ 31 ≤ (range 31).length ∧ (∃ t, exec .crc32 (folding true) = .next t) ∧
    (∃ t, exec .gen32 (folding true) = .next t) ∧ (∃ t, exec .crc64 (folding true) = .next t) ∧
    ∃ t, exec .gen64 (folding true) = .next t :=
  ⟨by decide, by decide, exec_of_some _ rfl, exec_of_some _ rfl, exec_of_some _ rfl, exec_of_some _ rfl⟩

theorem witness_BackendCannotBeObserved :
    ((∃ t, exec .crc32 (folding true) = .next t) ∧
      ∃ t, exec .crc32 (withCells (folding true) .no .generic .generic) = .next t) ∧
    (∃ t, exec .crc64 (folding true) = .next t) ∧
    ∃ t, exec .crc64 (withCells (folding true) .no .generic .generic) = .next t :=
  ⟨⟨exec_of_some _ rfl, exec_of_some _ rfl⟩, exec_of_some _ rfl, exec_of_some _ rfl⟩

theorem witness_EmptyBufferGivesTheAccumulatorBack :
    (state true (ctx 0xFFFFFFFFFFFFFFFF 0 5) noMem).contexts[0]? = some (ctx 0xFFFFFFFFFFFFFFFF 0 5) ∧
    (ctx 0xFFFFFFFFFFFFFFFF 0 5).len.value = 0 := ⟨rfl, rfl⟩

/-- Whether the command completes with OK and leaves `r` in RESULT of the issuing context. -/
def gives (i : Instr) (s : State) (r : Word) : Bool :=
  match exec i s with
  | .next t =>
    match t.contexts[s.cur]? with
    | some d => statusCode d.status == 0 && d.result.value == r
    | none => false
  | .fault _ => false
  | .refused _ => false

theorem completesWith_of_gives {i : Instr} {s : State} {c : Context} {b : List Byte} {r : Word}
    (hc : s.contexts[s.cur]? = some c) (hn : c.len.value.toNat = b.length)
    (hm : s.mem.holds c.addr.value.toNat b) (h : gives i s r = true) :
    CompletesWith i s c.addr.value.toNat b c.crcin.value r := by
  obtain ⟨t, ht⟩ := exec_of_some i hc
  simp only [gives, ht] at h
  split at h
  · rename_i d hd
    simp only [Bool.and_eq_true, beq_iff_eq] at h
    exact ⟨t, c, d, hc, rfl, hn, rfl, hm, ht, hd, h.1, h.2⟩
  · exact absurd h (by decide)

theorem completes_gen32 : CompletesWith .gen32 (folding true) 0x1000 (range 16) 0 0xCECEE288 :=
  completesWith_of_gives (c := ctx 0x1000 16 0) rfl rfl (holds_range16 true) (by decide +kernel)

/-- The 16 bytes of `range(16)`, the 16 after them, and both together, with these results of `i` (V34, V13). -/
def Chains (i : Instr) (r1 r2 : Word) : Prop :=
  CompletesWith i (folding true) 0x1000 (range 16) 0 r1 ∧
  CompletesWith i (state true (ctx 0x2000 16 r1) (memAt 0x2000 ((range 32).drop 16))) 0x2000 ((range 32).drop 16) r1 r2 ∧
  CompletesWith i (state true (ctx 0x3000 32 0) (memAt 0x3000 (range 32))) 0x3000 (range 16 ++ (range 32).drop 16) 0 r2

theorem holds_pieces : (memAt 0x2000 ((range 32).drop 16)).holds 0x2000 ((range 32).drop 16) ∧
    (memAt 0x3000 (range 32)).holds 0x3000 (range 16 ++ (range 32).drop 16) := by
  unfold Memory.holds
  decide +kernel

/-- Whether `i` gives the results of `Chains`. -/
def chains (i : Instr) (r1 r2 : Word) : Bool :=
  gives i (folding true) r1 && gives i (state true (ctx 0x2000 16 r1) (memAt 0x2000 ((range 32).drop 16))) r2 &&
    gives i (state true (ctx 0x3000 32 0) (memAt 0x3000 (range 32))) r2

theorem chains_of_gives {i : Instr} {r1 r2 : Word} (h : chains i r1 r2 = true) : Chains i r1 r2 := by
  simp only [chains, Bool.and_eq_true] at h
  exact ⟨completesWith_of_gives (c := ctx 0x1000 16 0) rfl rfl (holds_range16 true) h.1.1,
    completesWith_of_gives (c := ctx 0x2000 16 r1) rfl rfl holds_pieces.1 h.1.2,
    completesWith_of_gives (c := ctx 0x3000 32 0) rfl rfl holds_pieces.2 h.2⟩

theorem chains_hold : (∀ i ∈ [Instr.crc32, .gen32, .fold32], chains i 0xCECEE288 0x91267E8A = true) ∧
    ∀ i ∈ [Instr.crc64, .gen64, .fold64], chains i 0x7A64E421B6985356 0x7FE571A587084D10 = true := by decide +kernel

theorem witness_ResultsChain :
    (∀ i ∈ [Instr.crc32, .gen32, .fold32], Chains i 0xCECEE288 0x91267E8A) ∧
    ∀ i ∈ [Instr.crc64, .gen64, .fold64], Chains i 0x7A64E421B6985356 0x7FE571A587084D10 :=
  ⟨fun i hi => chains_of_gives (chains_hold.1 i hi), fun i hi => chains_of_gives (chains_hold.2 i hi)⟩

theorem witness_ResultsDoNotDependOnTheAddress :
    CompletesWith .gen32 (folding true) 0x1000 (range 16) 0 0xCECEE288 ∧
    CompletesWith .gen32 (state true (ctx 0x1001 16 0) (memAt 0x1001 (range 16))) 0x1001 (range 16) 0 0xCECEE288 := by
  refine ⟨completes_gen32, completesWith_of_gives (c := ctx 0x1001 16 0) rfl rfl ?_ (by decide +kernel)⟩
  unfold Memory.holds
  decide +kernel

theorem witness_NativeOrderChangesNothing : ∃ t, exec .fold64 (folding true) = .next t := exec_of_some _ rfl

/-- A command that faults, on a word that does not decode and on one that does. -/
theorem witness_FaultWritesOnlyStatus :
    (∃ t d, issue 0 (folding true) = .next t ∧ (folding true).contexts[0]? = some (ctx 0x1000 16 0) ∧
      t.contexts[0]? = some d ∧ statusCode d.status ≠ 0) ∧
    ∃ t d, issue 0x21 (folding false) = .next t ∧ (folding false).contexts[0]? = some (ctx 0x1000 16 0) ∧
      t.contexts[0]? = some d ∧ statusCode d.status ≠ 0 :=
  ⟨⟨_, _, rfl, rfl, rfl, by decide +kernel⟩, ⟨_, _, rfl, rfl, rfl, by decide +kernel⟩⟩

theorem witness_LowestApplicableFaultIsReported :
    (folding true).contexts[(folding true).cur]? = some (ctx 0x1000 16 0) ∧
    StatusCode.illegalOpcode.number < StatusCode.reservedBits.number := ⟨rfl, by decide⟩

theorem witness_FaultTableIsExact : StatusCode.noAccel ≠ .ok := by decide

theorem witness_FaultBitIsSticky :
    ({ issuing 0x30 with contexts := [ctx 0 0 0, { Context.reset with status := 0x106 }] } : State).contexts[1]? =
      some { Context.reset with status := 0x106 } ∧ statusFault 0x106 = true ∧
    ∃ t, Sys2Proof.core.run 2 { issuing 0x30 with contexts := [ctx 0 0 0, { Context.reset with status := 0x106 }] } = .next t :=
  ⟨rfl, by decide, _, rfl⟩

theorem witness_CommandsLeaveEverythingElseAlone (i : Instr) : ∃ t, exec i (folding true) = .next t := exec_of_some i rfl

theorem witness_CommandsFillOnlyTheirCells (i : Instr) : ∃ t, exec i (folding false) = .next t := exec_of_some i rfl

theorem witness_ContextsAreIsolated :
    (issuing 0x30).pending = ⟨1, .issue 0x30⟩ :: [⟨0, .read .status⟩] ∧ (∃ t, step (issuing 0x30) = .next t) ∧ 0 ≠ 1 :=
  ⟨rfl, ⟨_, rfl⟩, by decide⟩

theorem witness_CommandMarksExactlyUnwrittenOperands :
    (∃ t, exec .gen32 (state true Context.reset noMem) = .next t) ∧
    (state true Context.reset noMem).contexts[0]? = some Context.reset := ⟨exec_of_some _ rfl, rfl⟩

/-- Context 1 is to take the action `op`. -/
def acting (op : PortOp) : State := { folding true with pending := [⟨1, op⟩] }

theorem witness_SetAndMovWriteOneRegister (op : PortOp) :
    (acting op).contexts[1]? = some Context.reset ∧ (acting op).pending = ⟨1, op⟩ :: [] := ⟨rfl, rfl⟩

theorem witness_ReadReturnsTheRegister :
    (acting (.read .result)).contexts[1]? = some Context.reset ∧
    (acting (.read .result)).pending = ⟨1, .read .result⟩ :: [] ∧
    (acting (.read .status)).pending = ⟨1, .read .status⟩ :: [] := ⟨rfl, rfl, rfl⟩

/-- A store to the last readable byte, and one to the address after it, which is not readable. -/
theorem witness_HostStoreWritesOneByte :
    ((acting (.store 0x100F 1)).mem.wf ∧ 1 < (acting (.store 0x100F 1)).contexts.length ∧
      (acting (.store 0x100F 1)).pending = ⟨1, .store 0x100F 1⟩ :: [] ∧
      ((acting (.store 0x100F 1)).mem.read 0x100F).isSome = true) ∧
    ((acting (.store 0x1010 1)).mem.wf ∧ 1 < (acting (.store 0x1010 1)).contexts.length ∧
      (acting (.store 0x1010 1)).pending = ⟨1, .store 0x1010 1⟩ :: [] ∧
      ((acting (.store 0x1010 1)).mem.read 0x1010).isSome = false) := by
  refine ⟨⟨?_, by decide, rfl, by decide +kernel⟩, ?_, by decide, rfl, by decide +kernel⟩ <;>
  (unfold Memory.wf; decide +kernel)

theorem witness_PseudoInstructionsExpandAsTheTableSays :
    Instr.fold64 ≠ .detect ∧ (Instr.crc64 = .crc32 ∨ Instr.crc64 = .crc64) := by decide

/-- A state with a filled cell, readable memory and a command to come meets the invariant, and steps. -/
theorem witness_EveryStepKeepsTheInvariant : known.Inv ∧ ∃ t, step known = .next t := by
  refine ⟨⟨?_, by decide, by decide, ?_, ?_, ?_⟩, _, rfl⟩
  · decide
  · exact fun _ => by decide
  · exact fun _ => by decide
  · exact fun h => absurd rfl h

theorem witness_PlatformStaysFixed : ∃ t, Sys2Proof.core.run 1 (acting (.store 0x1010 1)) = .next t := ⟨_, rfl⟩

end Sys2Proof.Tests
end

section
/-! SUPPORT. Isolation of the contexts (10_state.md R37). What one context does leaves the registers of every other context
as they are; and it does not read them: each operation of the model, from the state in which another context has other
registers, answers what it answered before, with those registers in place. -/

open Sys2Proof.Expected

namespace Sys2Proof.Machine

/-! ### No other context's registers are changed -/

/-- A command changes no other context's registers. -/
theorem exec_contexts_ne {i : Instr} {s t : State} {d : Nat} (hd : d ≠ s.cur) (h : exec i s = .next t) :
    t.contexts[d]? = s.contexts[d]? := by
  obtain ⟨c, p, -, hp, ⟨v, rfl⟩ | ⟨code, -, rfl⟩⟩ := exec_next h
  all_goals exact (State.modifyCur_getElem_ne _ (hp.cur ▸ hd)).trans (congrArg (·[d]?) hp.contexts)

/-- One step changes no registers but those of the context whose action it takes. -/
theorem step_contexts_ne {s t : State} {act : HostAction} {rest : List HostAction} {d : Nat}
    (hp : s.pending = act :: rest) (hd : d ≠ act.ctx) (h : step s = .next t) : t.contexts[d]? = s.contexts[d]? := by
  rcases step_next h with ⟨hnil, -⟩ | ⟨act', rest', p, hp', rfl, hcases⟩
  · simp [hp] at hnil
  · obtain ⟨rfl, rfl⟩ := List.cons.inj (hp.symm.trans hp')
    rcases hcases with ⟨r, v, c, -, -, rfl⟩ | ⟨c, -, -, rfl⟩ | ⟨r, c, -, -, rfl⟩ | ⟨a, b, c, -, -, rfl⟩ |
      ⟨w, i, -, -, hexec⟩ | ⟨w, f, c, -, -, -, rfl⟩
    · exact State.modifyCur_getElem_ne _ hd
    · exact State.modifyCur_getElem_ne _ hd
    · rfl
    · rfl
    · exact (exec_contexts_ne hd hexec).trans (State.modifyCur_getElem_ne _ hd)
    · exact (State.modifyCur_getElem_ne _ hd).trans (State.modifyCur_getElem_ne _ hd)

/-! ### No other context's registers are read

Each lemma moves `withRegisters` out through one operation; those that touch the issuing context ask that it be another
one than `d`. -/

section
variable {s t : State} {d : Nat} {x : Context}

theorem withRegisters_modifyCur (hd : d ≠ s.cur) (f : Context → Context) :
    (withRegisters s d x).modifyCur f = withRegisters (s.modifyCur f) d x := by
  have hcomm : (s.contexts.set d x).modify s.cur f = (s.contexts.modify s.cur f).set d x := by
    apply List.ext_getElem?
    intro e
    by_cases he : d = e
    · subst he
      simp [List.getElem?_set, hd.symm]
    · simp [List.getElem?_modify, List.getElem?_set_ne he]
  simp only [State.modifyCur, withRegisters, hcomm]

theorem withRegisters_readOperands (c : Context) :
    (withRegisters s d x).readOperands c = withRegisters (s.readOperands c) d x := rfl

theorem withRegisters_finish (hd : d ≠ s.cur) (buf : Except StatusCode (List Byte)) (value : List Byte → Word) :
    (withRegisters s d x).finish buf value = withRegisters (s.finish buf value) d x := by
  cases buf with
  | error code => exact withRegisters_modifyCur hd _
  | ok b => exact withRegisters_modifyCur hd _

theorem withRegisters_detect : detect (withRegisters s d x) = withRegisters (detect s) d x := by
  have hcap : (withRegisters s d x).cap = s.cap := rfl
  simp only [detect, hcap]
  split <;> rfl

theorem withRegisters_resolve32 : resolve32 (withRegisters s d x) = withRegisters (resolve32 s) d x := by
  have hsel : (withRegisters s d x).sel32 = s.sel32 := rfl
  simp only [resolve32, hsel, withRegisters_detect]
  split <;> rfl

theorem withRegisters_resolve64 : resolve64 (withRegisters s d x) = withRegisters (resolve64 s) d x := by
  have hsel : (withRegisters s d x).sel64 = s.sel64 := rfl
  simp only [resolve64, hsel, withRegisters_detect]
  split <;> rfl

/-- The registers handed to an action of the issuing context do not depend on another context's, so the action answers alike
when its outcome does. -/
theorem withRegisters_withContext {act act' : Context → State} (hd : d ≠ s.cur)
    (hact : ∀ c, act' c = withRegisters (act c) d x) (h : withContext s act = .next t) :
    withContext (withRegisters s d x) act' = .next (withRegisters t d x) := by
  obtain ⟨c, hc, rfl⟩ := withContext_next.1 h
  have hc' : (withRegisters s d x).contexts[s.cur]? = some c := (List.getElem?_set_ne hd).trans hc
  rw [withContext_of_some act' hc', hact]

theorem withRegisters_genericCommand {value : Context → List Byte → Word} (hd : d ≠ s.cur)
    (h : genericCommand s value = .next t) :
    genericCommand (withRegisters s d x) value = .next (withRegisters t d x) :=
  withRegisters_withContext hd (fun c => withRegisters_finish (s := s.readOperands c) hd _ _) h

theorem withRegisters_foldCommand {value : Context → List Byte → Word} (hd : d ≠ s.cur)
    (h : foldCommand s value = .next t) :
    foldCommand (withRegisters s d x) value = .next (withRegisters t d x) := by
  refine withRegisters_withContext hd (fun c => ?_) h
  have hvalue : detectValue (withRegisters (s.readOperands c) d x) = detectValue (s.readOperands c) := rfl
  have hdet : d ≠ (detect (s.readOperands c)).cur := by simpa using hd
  simp only [withRegisters_readOperands, hvalue, withRegisters_detect]
  cases foldContract c.bufAddr c.bufLen with
  | some code => exact withRegisters_modifyCur (s := s.readOperands c) hd _
  | none =>
    cases detectValue (s.readOperands c) with
    | true => exact withRegisters_finish hdet _ _
    | false => exact withRegisters_modifyCur hdet _

theorem withRegisters_dispatchCommand {sel : Sel} {resolve : State → State} {value : Sel → Context → List Byte → Word}
    (hd : d ≠ s.cur) (hcur : ∀ p, (resolve p).cur = p.cur)
    (hres : ∀ p, resolve (withRegisters p d x) = withRegisters (resolve p) d x)
    (h : dispatchCommand s sel resolve value = .next t) :
    dispatchCommand (withRegisters s d x) sel resolve value = .next (withRegisters t d x) := by
  refine withRegisters_withContext hd (fun c => ?_) h
  rw [withRegisters_readOperands, hres]
  exact withRegisters_finish (by simpa [hcur] using hd) _ _

/-- A command reads no other context's registers. -/
theorem withRegisters_exec {i : Instr} (hd : d ≠ s.cur) (h : exec i s = .next t) :
    exec i (withRegisters s d x) = .next (withRegisters t d x) := by
  cases i with
  | crc32 =>
    simp only [exec, execCrc32] at h ⊢
    exact withRegisters_dispatchCommand hd resolve32_cur (fun _ => withRegisters_resolve32) h
  | crc64 =>
    simp only [exec, execCrc64] at h ⊢
    exact withRegisters_dispatchCommand hd resolve64_cur (fun _ => withRegisters_resolve64) h
  | gen32 => exact withRegisters_genericCommand hd h
  | gen64 => exact withRegisters_genericCommand hd h
  | fold32 => exact withRegisters_foldCommand hd h
  | fold64 => exact withRegisters_foldCommand hd h
  | detect =>
    refine withRegisters_withContext hd (fun _ => ?_) h
    rw [withRegisters_detect]
    exact withRegisters_modifyCur (by simpa using hd) _

/-- The issue of a command word reads no other context's registers, whether the word decodes or not. -/
theorem withRegisters_issue {w : Word32} (hd : d ≠ s.cur) (h : issue w s = .next t) :
    issue w (withRegisters s d x) = .next (withRegisters t d x) := by
  have hcmd : (withRegisters s d x).writeCmd w = withRegisters (s.writeCmd w) d x := withRegisters_modifyCur hd _
  simp only [issue, hcmd] at h ⊢
  cases hw : decode w with
  | ok i =>
    rw [hw] at h
    exact withRegisters_exec (s := s.writeCmd w) hd h
  | error f =>
    rw [hw] at h
    exact withRegisters_withContext (s := s.writeCmd w) hd (fun _ => withRegisters_modifyCur (s := s.writeCmd w) hd _) h

/-- An action of the issuing context reads no other context's registers. -/
theorem withRegisters_portAction {op : PortOp} (hd : d ≠ s.cur) (h : portAction op s = .next t) :
    portAction op (withRegisters s d x) = .next (withRegisters t d x) := by
  cases op with
  | set r v => exact withRegisters_withContext hd (fun _ => withRegisters_modifyCur hd _) h
  | movCrcinResult =>
    exact withRegisters_withContext hd
      (fun c => withRegisters_modifyCur (s := s.markUnless c.result.held) hd _) h
  | read r => exact withRegisters_withContext hd (fun _ => rfl) h
  | issue w => exact withRegisters_issue hd h
  | store a b => exact withRegisters_withContext hd (fun _ => rfl) h

/-- One step reads no registers but those of the context whose action it takes. -/
theorem withRegisters_step {act : HostAction} {rest : List HostAction} (hp : s.pending = act :: rest) (hd : d ≠ act.ctx)
    (h : step s = .next t) : step (withRegisters s d x) = .next (withRegisters t d x) := by
  have hp' : (withRegisters s d x).pending = act :: rest := hp
  simp only [step, nextAction, hp, hp'] at h ⊢
  exact withRegisters_portAction (s := s.beginAction act.ctx rest) hd h

end

/-- Settles O44: the frame of a step, and its independence of another context's registers. -/
theorem contextsAreIsolated : Obligations.ContextsAreIsolated :=
  fun _ _ _ _ _ _ hp h hd => ⟨step_contexts_ne hp hd h, withRegisters_step hp hd h⟩

end Sys2Proof.Machine
end

section
/-! SUPPORT. The Generic Computer's datapath is the raw update (40_generic.md R105 law 4, R106 to R110). -/

namespace Sys2Proof.Machine

/-! ### The register in the buffer (R105, law 4) -/

section
variable {w : Nat}

theorem length_xorRegister (r : BitVec w) (b : List Byte) : (xorRegister r b).length = b.length := by
  induction b generalizing r with
  | nil => rfl
  | cons x b ih => simp [xorRegister, ih]

/-- The register of the raw update passes through the buffer by bit steps alone. -/
theorem rawUpdate_xor_register (p r q : BitVec w) (b : List Byte) :
    rawUpdate p (r ^^^ q) b = rawUpdate p r b ^^^ bitSteps p (8 * b.length) q := by
  induction b generalizing r q with
  | nil => rfl
  | cons x b ih =>
    have hstep : bitSteps p 8 (r ^^^ q ^^^ x.setWidth w) = bitSteps p 8 (r ^^^ x.setWidth w) ^^^ bitSteps p 8 q := by
      rw [← bitSteps_xor]; congr 1; ac_rfl
    rw [rawUpdate_cons, rawUpdate_cons, hstep, ih, List.length_cons, Nat.mul_succ, Nat.add_comm, bitSteps_add]

/-- Row `k` of a table is the index shifted out through `k + 1` bytes (R106). -/
theorem tableEntry_eq_bitSteps (p : BitVec w) (k : Nat) (i : Byte) :
    tableEntry p k i = bitSteps p (8 * (k + 1)) (i.setWidth w) := by
  induction k with
  | zero => exact tableRow0_eq p i
  | succ k ih => rw [tableEntry, tableNext_eq, ih, ← bitSteps_add]; rfl

/-- From a zero register, the first byte contributes its table entry (R106). -/
theorem rawUpdate_zero_cons (p : BitVec w) (x : Byte) (b : List Byte) :
    rawUpdate p 0 (x :: b) = tableEntry p b.length x ^^^ rawUpdate p 0 b := by
  have hsplit : rawUpdate p 0 (x :: b) = rawUpdate p 0 b ^^^ bitSteps p (8 * b.length) (bitSteps p 8 (x.setWidth w)) := by
    simpa [rawUpdate_cons] using rawUpdate_xor_register p 0 (bitSteps p 8 (x.setWidth w)) b
  rw [hsplit, BitVec.xor_comm, ← bitSteps_add, tableEntry_eq_bitSteps, Nat.mul_succ, Nat.add_comm]

/-- Eight bit steps of a register with a byte XORed in: the upper part shifts, the low byte goes through row 0. -/
theorem bitSteps_eight_xor_byte (p r : BitVec w) (x : Byte) :
    bitSteps p 8 (r ^^^ x.setWidth w) = (r >>> 8) ^^^ bitSteps p 8 ((x ^^^ r.setWidth 8).setWidth w) := by
  rw [bitSteps_split]
  congr 1
  · apply BitVec.eq_of_getLsbD_eq
    intro i hi
    simp
  · congr 1
    apply BitVec.eq_of_getLsbD_eq
    intro i hi
    by_cases h8 : i < 8
    · simp [h8, hi, Bool.xor_comm]
    · simp [h8, BitVec.getLsbD_of_ge x i (by omega)]

/-- Law 4 at every length: the part of the register that the buffer does not reach shifts down, and the rest may as well be
XORed into the first bytes. -/
theorem rawUpdate_eq_shift_xor (p r : BitVec w) (b : List Byte) :
    rawUpdate p r b = (r >>> (8 * b.length)) ^^^ rawUpdate p 0 (xorRegister r b) := by
  induction b generalizing r with
  | nil => simp [xorRegister]
  | cons x b ih =>
    have hbyte : rawUpdate p r (x :: b) =
        rawUpdate p (r >>> 8) b ^^^ tableEntry p b.length (x ^^^ r.setWidth 8) := by
      rw [rawUpdate_cons, bitSteps_eight_xor_byte, rawUpdate_xor_register, ← bitSteps_add, tableEntry_eq_bitSteps,
        Nat.mul_succ, Nat.add_comm]
    rw [hbyte, ih, xorRegister, rawUpdate_zero_cons, length_xorRegister, ← BitVec.shiftRight_add, List.length_cons,
      Nat.mul_succ, Nat.add_comm 8, BitVec.xor_assoc, BitVec.xor_comm (rawUpdate _ _ _)]

/-- Law 4 (R105): a buffer at least as long as the register takes the register in. -/
theorem rawUpdate_eq_rawUpdate_xorRegister (p r : BitVec w) {b : List Byte} (h : w ≤ 8 * b.length) :
    rawUpdate p r b = rawUpdate p 0 (xorRegister r b) := by
  rw [rawUpdate_eq_shift_xor, BitVec.ushiftRight_eq_zero h, BitVec.zero_xor]

end

/-! ### The byte step and the chunk steps (R107 to R109) -/

/-- Byte `k` of the little-endian reading (00_scope.md R13). -/
theorem leNat_shiftRight_mod (b : List Byte) {k : Nat} (hk : k < b.length) : (leNat b >>> (8 * k)) % 2 ^ 8 = b[k].toNat := by
  induction b generalizing k with
  | nil => simp at hk
  | cons x b ih =>
    have hx := x.isLt
    cases k with
    | zero =>
      rw [Nat.mul_zero, Nat.shiftRight_zero, leNat, List.getElem_cons_zero]
      omega
    | succ k =>
      have hshift : leNat (x :: b) >>> (8 * (k + 1)) = leNat b >>> (8 * k) := by
        rw [Nat.mul_succ, Nat.add_comm, Nat.shiftRight_add]
        congr 1
        simp only [leNat, Nat.shiftRight_eq_div_pow]
        omega
      rw [hshift]
      exact ih (by simpa using hk)

/-- Byte `k` of a register with the little-endian reading of bytes XORed in. -/
theorem extractLsb'_xor_leNat {w : Nat} (r : BitVec w) (b : List Byte) {k : Nat} (hk : k < b.length) (hw : 8 * k + 8 ≤ w) :
    (r ^^^ BitVec.ofNat w (leNat b)).extractLsb' (8 * k) 8 = b[k] ^^^ (r >>> (8 * k)).setWidth 8 := by
  have hb : (BitVec.ofNat w (leNat b)).extractLsb' (8 * k) 8 = b[k] := by
    have hword : BitVec.extractLsb' (8 * k) 8 (BitVec.ofNat w (leNat b)) = BitVec.ofNat 8 (leNat b >>> (8 * k)) := by
      apply BitVec.eq_of_getLsbD_eq
      intro i hi
      have hiw : 8 * k + i < w := by omega
      rw [BitVec.getLsbD_extractLsb', BitVec.getLsbD_ofNat, BitVec.getLsbD_ofNat, Nat.testBit_shiftRight]
      simp [hi, hiw]
    apply BitVec.eq_of_toNat_eq
    rw [hword, BitVec.toNat_ofNat, leNat_shiftRight_mod b hk]
  have hr : r.extractLsb' (8 * k) 8 = (r >>> (8 * k)).setWidth 8 := by
    apply BitVec.eq_of_getLsbD_eq
    intro i hi
    simp [hi]
  rw [BitVec.extractLsb'_xor, hb, hr, BitVec.xor_comm]

/-- The four index bytes of a chunk step are the bytes of the buffer with the register XORed in. -/
theorem extractLsb'_xor_four_bytes {w : Nat} (hw : 32 ≤ w) (r : BitVec w) (b0 b1 b2 b3 : Byte) :
    (r ^^^ BitVec.ofNat w (leNat [b0, b1, b2, b3])).extractLsb' 0 8 = b0 ^^^ (r >>> 0).setWidth 8 ∧
    (r ^^^ BitVec.ofNat w (leNat [b0, b1, b2, b3])).extractLsb' 8 8 = b1 ^^^ (r >>> 8).setWidth 8 ∧
    (r ^^^ BitVec.ofNat w (leNat [b0, b1, b2, b3])).extractLsb' 16 8 = b2 ^^^ (r >>> 16).setWidth 8 ∧
    (r ^^^ BitVec.ofNat w (leNat [b0, b1, b2, b3])).extractLsb' 24 8 = b3 ^^^ (r >>> 24).setWidth 8 := by
  have hbyte := fun k (hk : k < 4) => extractLsb'_xor_leNat r [b0, b1, b2, b3] hk (by omega)
  exact ⟨hbyte 0 (by decide), hbyte 1 (by decide), hbyte 2 (by decide), hbyte 3 (by decide)⟩

/-- R107 for CRC-32. -/
theorem byteStep32_eq_update32 (r : Word32) (x : Byte) : byteStep32 r x = update32 r [x] := by
  rw [update32, rawUpdate_eq_shift_xor, xorRegister, xorRegister, rawUpdate_zero_cons]
  simp [byteStep32, table32, BitVec.xor_comm]

/-- R107 for CRC-64. -/
theorem byteStep64_eq_update64 (r : Word) (x : Byte) : byteStep64 r x = update64 r [x] := by
  rw [update64, rawUpdate_eq_shift_xor, xorRegister, xorRegister, rawUpdate_zero_cons]
  simp [byteStep64, table64, BitVec.xor_comm]

/-- R108: the register reaches the first four bytes of the chunk; the table rows do the rest. -/
theorem chunk32_eq_update32 (r : Word32) (b0 b1 b2 b3 b4 b5 b6 b7 : Byte) :
    chunk32 r b0 b1 b2 b3 b4 b5 b6 b7 = update32 r [b0, b1, b2, b3, b4, b5, b6, b7] := by
  obtain ⟨h0, h1, h2, h3⟩ := extractLsb'_xor_four_bytes (Nat.le_refl 32) r b0 b1 b2 b3
  have hhigh : ∀ k, 32 ≤ k → r >>> k = 0 := fun k hk => BitVec.ushiftRight_eq_zero hk
  rw [update32, rawUpdate_eq_rawUpdate_xorRegister _ _ (by simp)]
  simp only [xorRegister, rawUpdate_zero_cons]
  simp [chunk32, table32, h0, h1, h2, h3, ← BitVec.shiftRight_add, hhigh, BitVec.xor_assoc]

/-- R109: the chunk reaches the low half of the register; the high half shifts down. -/
theorem chunk64_eq_update64 (r : Word) (b0 b1 b2 b3 : Byte) : chunk64 r b0 b1 b2 b3 = update64 r [b0, b1, b2, b3] := by
  obtain ⟨h0, h1, h2, h3⟩ := extractLsb'_xor_four_bytes (by decide) r b0 b1 b2 b3
  have hhigh : BitVec.ofNat 64 (leNat [b0, b1, b2, b3]) >>> 32 = 0 := by
    apply BitVec.eq_of_toNat_eq
    have hlt : leNat [b0, b1, b2, b3] < 2 ^ 32 := by simp only [leNat]; omega
    rw [BitVec.toNat_ushiftRight, BitVec.toNat_ofNat, Nat.mod_eq_of_lt (Nat.lt_trans hlt (by decide)),
      Nat.shiftRight_eq_zero _ _ hlt]
    rfl
  rw [update64, rawUpdate_eq_shift_xor]
  simp only [xorRegister, rawUpdate_zero_cons]
  simp [chunk64, table64, h0, h1, h2, h3, ← BitVec.shiftRight_add, BitVec.ushiftRight_xor_distrib, hhigh,
    BitVec.xor_assoc, BitVec.xor_comm (r >>> 32)]

/-! ### The schedule (R110) -/

theorem foldl_byteStep32 (r : Word32) (b : List Byte) : b.foldl byteStep32 r = update32 r b := by
  induction b generalizing r with
  | nil => rfl
  | cons x b ih => rw [List.foldl_cons, ih, byteStep32_eq_update32]; rfl

theorem foldl_byteStep64 (r : Word) (b : List Byte) : b.foldl byteStep64 r = update64 r b := by
  induction b generalizing r with
  | nil => rfl
  | cons x b ih => rw [List.foldl_cons, ih, byteStep64_eq_update64]; rfl

/-- R110: slice-by-8 and the byte steps after it make the raw update. -/
theorem generic32_eq_update32 (r : Word32) (b : List Byte) : generic32 r b = update32 r b := by
  induction r, b using generic32.induct with
  | case1 r b0 b1 b2 b3 b4 b5 b6 b7 b ih => rw [generic32, ih, chunk32_eq_update32]; rfl
  | case2 r b h => rw [generic32, foldl_byteStep32]; exact h

/-- R110: slice-by-4 and the byte steps after it make the raw update. -/
theorem generic64_eq_update64 (r : Word) (b : List Byte) : generic64 r b = update64 r b := by
  induction r, b using generic64.induct with
  | case1 r b0 b1 b2 b3 b ih => rw [generic64, ih, chunk64_eq_update64]; rfl
  | case2 r b h => rw [generic64, foldl_byteStep64]; exact h

end Sys2Proof.Machine
end

section
/-! SUPPORT. The raw update as a remainder modulo the checksum's polynomial (40_generic.md R111), with the remainders of one
polynomial taken as the elements of a quotient ring. -/

namespace Sys2Proof.Machine

open Polynomial

/-! ### Residues -/

/-- The residue modulo `g` of the polynomial that a number stands for (00_scope.md R15). -/
noncomputable def residue (g a : Nat) : AdjoinRoot (toPoly g) := AdjoinRoot.mk (toPoly g) (toPoly a)

@[simp] theorem residue_zero (g : Nat) : residue g 0 = 0 := by simp [residue]

@[simp] theorem residue_self (g : Nat) : residue g g = 0 := AdjoinRoot.mk_self

@[simp] theorem residue_xor (g a b : Nat) : residue g (a ^^^ b) = residue g a + residue g b := by simp [residue]

@[simp] theorem residue_shiftLeft (g a k : Nat) :
    residue g (a <<< k) = residue g a * AdjoinRoot.root (toPoly g) ^ k := by simp [residue]

@[simp] theorem residue_two_pow (g k : Nat) : residue g (2 ^ k) = AdjoinRoot.root (toPoly g) ^ k := by simp [residue]

@[simp] theorem residue_clmul (g a b : Nat) : residue g (clmul a b) = residue g a * residue g b := by simp [residue]

/-- Residues are equal exactly when `pmod` is. -/
theorem residue_eq_iff {g a b : Nat} (hg : g ≠ 0) : residue g a = residue g b ↔ pmod a g = pmod b g := by
  rw [residue, residue, AdjoinRoot.mk_eq_mk, pmod_eq_iff hg]

theorem pmod_of_lt {g a : Nat} (hg : g ≠ 0) (ha : a < 2 ^ g.log2) : pmod a g = a := by
  apply toPoly_injective
  rw [toPoly_pmod hg, modByMonic_eq_self_iff (toPoly_monic hg), degree_eq_natDegree (toPoly_ne_zero hg),
    toPoly_natDegree hg]
  exact toPoly_degree_lt_iff.2 ha

@[simp] theorem residue_pmod {g : Nat} (hg : g ≠ 0) (a : Nat) : residue g (pmod a g) = residue g a :=
  (residue_eq_iff hg).2 (pmod_of_lt hg (pmod_lt hg))

/-- Below the modulus a number is its residue. -/
theorem eq_pmod_of_residue_eq {g a b : Nat} (hg : g ≠ 0) (ha : a < 2 ^ g.log2) (h : residue g a = residue g b) :
    a = pmod b g := by
  rw [← (residue_eq_iff hg).1 h, pmod_of_lt hg ha]

/-! ### Reversal and the message polynomial -/

theorem revBits_lt (n v : Nat) : revBits n v < 2 ^ n := by
  apply Nat.lt_pow_two_of_testBit
  intro i hi
  simp [revBits_testBit, Nat.not_lt.2 hi]

@[simp] theorem revBits_zero (n : Nat) : revBits n 0 = 0 := by
  apply Nat.eq_of_testBit_eq
  simp [revBits_testBit]

/-- Only the low `n` bits are reversed. -/
theorem revBits_mod (n v : Nat) : revBits n (v % 2 ^ n) = revBits n v := by
  apply Nat.eq_of_testBit_eq
  intro i
  have hn : i < n → n - 1 - i < n := by omega
  by_cases hi : i < n <;> simp [revBits_testBit, hi, hn]

theorem revBits_xor (n a b : Nat) : revBits n (a ^^^ b) = revBits n a ^^^ revBits n b := by
  apply Nat.eq_of_testBit_eq
  intro i
  simp only [revBits_testBit, Nat.testBit_xor]
  cases decide (i < n) <;> simp

theorem revBits_revBits {n v : Nat} (hv : v < 2 ^ n) : revBits n (revBits n v) = v := by
  apply Nat.eq_of_testBit_eq
  intro i
  rw [revBits_testBit, revBits_testBit]
  by_cases hi : i < n
  · have hn : n - 1 - i < n := by omega
    have hi' : n - 1 - (n - 1 - i) = i := by omega
    simp [hi, hn, hi']
  · simp [hi, Nat.testBit_lt_two_pow (Nat.lt_of_lt_of_le hv (Nat.pow_le_pow_right (by decide) (Nat.le_of_not_lt hi)))]

/-- Reversal puts the low part in front of the high part. -/
theorem revBits_add (m n v : Nat) : revBits (m + n) v = (revBits m v <<< n) ^^^ revBits n (v >>> m) := by
  apply Nat.eq_of_testBit_eq
  intro i
  simp only [Nat.testBit_xor, Nat.testBit_shiftLeft, revBits_testBit, Nat.testBit_shiftRight]
  by_cases hi : i < n
  · have hm : i < m + n := by omega
    have hv : m + (n - 1 - i) = m + n - 1 - i := by omega
    simp [hi, hm, Nat.not_le.2 hi, hv]
  · have hm : i - n < m ↔ i < m + n := by omega
    have hv : m - 1 - (i - n) = m + n - 1 - i := by omega
    simp [hi, hm, Nat.le_of_not_lt hi, hv]

/-- Bytes put behind a message take it up to higher degrees. -/
theorem messagePoly_append (b c : List Byte) :
    messagePoly (b ++ c) = (messagePoly b <<< (8 * c.length)) ^^^ messagePoly c := by
  induction b with
  | nil => simp [messagePoly]
  | cons x b ih =>
    simp [messagePoly, ih, Nat.shiftLeft_xor_distrib, ← Nat.shiftLeft_add, Nat.mul_add, Nat.xor_assoc]

/-- The little-endian reading, reversed, is the message polynomial (R150). -/
theorem revBits_leNat (b : List Byte) : revBits (8 * b.length) (leNat b) = messagePoly b := by
  induction b with
  | nil => rfl
  | cons x b ih =>
    have hx := x.isLt
    have hlow : leNat (x :: b) % 2 ^ 8 = x.toNat := by simp only [leNat]; omega
    have hhigh : leNat (x :: b) >>> 8 = leNat b := by simp only [leNat, Nat.shiftRight_eq_div_pow]; omega
    rw [List.length_cons, Nat.mul_succ, Nat.add_comm, revBits_add, ← revBits_mod 8, hlow, hhigh, ih, messagePoly]

/-! ### The raw update (R111) -/

/-- The polynomial `g` of degree `w` in normal form and in the reflected form `p` (R100, R101). -/
structure Reflects {w : Nat} (p : BitVec w) (g : Nat) : Prop where
  byteFits : 8 ≤ w
  degree : g.log2 = w
  leading : 2 ^ w = g ^^^ revBits w p.toNat

theorem reflects32 : Reflects poly32 fold32G := ⟨by decide, by decide +kernel, by decide +kernel⟩

theorem reflects64 : Reflects poly64 fold64G := ⟨by decide, by decide +kernel, by decide +kernel⟩

section
variable {w g : Nat} {p : BitVec w}

theorem Reflects.ne_zero (h : Reflects p g) : g ≠ 0 := by
  rintro rfl
  have hw := h.byteFits
  rw [← h.degree, Nat.log2_zero] at hw
  exact absurd hw (by decide)

/-- Of a reversed register shifted up, the bit that leaves the register is its lowest one. -/
theorem revBits_shiftLeft_one (r : BitVec w) :
    revBits w r.toNat <<< 1 = revBits w (r >>> 1).toNat ^^^ (if r.getLsbD 0 then 2 ^ w else 0) := by
  have htop : revBits (w + 1) r.toNat = revBits w r.toNat <<< 1 := by
    rw [revBits_add, Nat.shiftRight_eq_zero _ _ r.isLt, revBits_zero, Nat.xor_zero]
  have hlow : revBits 1 r.toNat <<< w = if r.getLsbD 0 then 2 ^ w else 0 := by
    cases h : r.getLsbD 0 <;> simp_all [revBits, BitVec.getLsbD, Nat.shiftLeft_eq]
  rw [← htop, Nat.add_comm, revBits_add, hlow, Nat.xor_comm, BitVec.toNat_ushiftRight]

/-- A bit step multiplies by `x` (R102). -/
theorem residue_bitStep (h : Reflects p g) (r : BitVec w) :
    residue g (revBits w (bitStep p r).toNat) = residue g (revBits w r.toNat) * AdjoinRoot.root (toPoly g) := by
  have hp : residue g (revBits w p.toNat) = AdjoinRoot.root (toPoly g) ^ w := by
    rw [← residue_two_pow, h.leading, residue_xor, residue_self, zero_add]
  have hshift := congrArg (residue g) (revBits_shiftLeft_one r)
  rw [residue_shiftLeft, pow_one, residue_xor] at hshift
  rw [hshift, bitStep, BitVec.toNat_xor, revBits_xor, residue_xor]
  split <;> simp [hp]

/-- `k` bit steps multiply by `x^k`. -/
theorem residue_bitSteps (h : Reflects p g) (k : Nat) (r : BitVec w) :
    residue g (revBits w (bitSteps p k r).toNat) = residue g (revBits w r.toNat) * AdjoinRoot.root (toPoly g) ^ k := by
  induction k generalizing r with
  | zero => simp [bitSteps]
  | succ k ih => rw [bitSteps, ih, residue_bitStep h, pow_succ', mul_assoc]

/-- A byte enters at the register's highest degrees. -/
theorem revBits_byte (hw : 8 ≤ w) (x : Byte) : revBits w (x.setWidth w).toNat = revBits 8 x.toNat <<< (w - 8) := by
  have hx : x.toNat < 2 ^ w := Nat.lt_of_lt_of_le x.isLt (Nat.pow_le_pow_right (by decide) hw)
  have hsplit := revBits_add 8 (w - 8) x.toNat
  rw [Nat.add_sub_cancel' hw, Nat.shiftRight_eq_zero _ _ x.isLt, revBits_zero, Nat.xor_zero] at hsplit
  rw [BitVec.toNat_setWidth, Nat.mod_eq_of_lt hx, hsplit]

/-- R111: the raw update is the remainder of the register and the message, each at its degrees. -/
theorem residue_rawUpdate (h : Reflects p g) (r : BitVec w) (b : List Byte) :
    residue g (revBits w (rawUpdate p r b).toNat) =
      residue g (revBits w r.toNat) * AdjoinRoot.root (toPoly g) ^ (8 * b.length) +
        residue g (messagePoly b) * AdjoinRoot.root (toPoly g) ^ w := by
  induction b generalizing r with
  | nil => simp [messagePoly]
  | cons x b ih =>
    have hw : AdjoinRoot.root (toPoly g) ^ w = AdjoinRoot.root (toPoly g) ^ (w - 8) * AdjoinRoot.root (toPoly g) ^ 8 := by
      rw [← pow_add, Nat.sub_add_cancel h.byteFits]
    rw [rawUpdate_cons, ih, residue_bitSteps h, BitVec.toNat_xor, revBits_xor, residue_xor, revBits_byte h.byteFits,
      residue_shiftLeft, messagePoly, residue_xor, residue_shiftLeft, List.length_cons, Nat.mul_succ, pow_add, hw]
    ring

end

end Sys2Proof.Machine
end

section
/-! SUPPORT. The Accelerated Computer's datapath is the raw update (42_accelerated.md R150 to R160). -/

namespace Sys2Proof.Machine

open Polynomial

/-! ### Carry-less products and parts of a number -/

/-- Factors of degree below `m` and of degree at most `n` have a product of degree below `m + n`. -/
theorem clmul_lt {a b m n : Nat} (ha : a < 2 ^ m) (hb : b < 2 ^ (n + 1)) : clmul a b < 2 ^ (m + n) := by
  rw [← toPoly_degree_lt_iff] at ha hb ⊢
  rw [toPoly_clmul, degree_mul, Nat.cast_add]
  have hb : (toPoly b).degree ≤ n := (degree_le_iff_coeff_zero _ _).2 fun m hm =>
    coeff_eq_zero_of_degree_lt (hb.trans_le (by exact_mod_cast hm))
  calc (toPoly a).degree + (toPoly b).degree ≤ (toPoly a).degree + n := by gcongr
    _ < m + n := WithBot.add_lt_add_right (by simp) ha

theorem clmul_lt_of_lt {a b m n : Nat} (ha : a < 2 ^ m) (hb : b < 2 ^ n) : clmul a b < 2 ^ (m + n) :=
  clmul_lt ha (Nat.lt_trans hb (Nat.pow_lt_pow_succ (by decide)))

/-- A number is its high part shifted up, with its low part. -/
theorem shiftRight_shiftLeft_xor_mod (a k : Nat) : ((a >>> k) <<< k) ^^^ (a % 2 ^ k) = a := by
  apply Nat.eq_of_testBit_eq
  intro i
  simp only [Nat.testBit_xor, Nat.testBit_shiftLeft, Nat.testBit_shiftRight, Nat.testBit_mod_two_pow]
  by_cases hi : i < k
  · simp [hi, Nat.not_le.2 hi]
  · simp [hi, Nat.le_of_not_lt hi]

theorem shiftRight_lt {a k n : Nat} (ha : a < 2 ^ (k + n)) : a >>> k < 2 ^ n := by
  rw [Nat.shiftRight_eq_div_pow]
  exact Nat.div_lt_of_lt_mul (by rwa [← Nat.pow_add])

theorem shiftLeft_lt {a k n : Nat} (ha : a < 2 ^ n) : a <<< k < 2 ^ (n + k) := by
  rw [Nat.shiftLeft_eq, Nat.pow_add]
  exact Nat.mul_lt_mul_of_pos_right ha (Nat.two_pow_pos k)

theorem toPoly_split (a k : Nat) : toPoly a = toPoly (a >>> k) * X ^ k + toPoly (a % 2 ^ k) := by
  rw [← toPoly_shiftLeft, ← toPoly_xor, shiftRight_shiftLeft_xor_mod]

theorem residue_split (g a k : Nat) :
    residue g a = residue g (a >>> k) * AdjoinRoot.root (toPoly g) ^ k + residue g (a % 2 ^ k) := by
  rw [← residue_shiftLeft, ← residue_xor, shiftRight_shiftLeft_xor_mod]

/-- A constant given as the remainder of a power of `x` is that power modulo `g` (R152). -/
theorem residue_of_eq_pmod {g k n : Nat} (hg : g ≠ 0) (hk : k = pmod (2 ^ n) g) :
    residue g k = AdjoinRoot.root (toPoly g) ^ n := by
  rw [hk, residue_pmod hg, residue_two_pow]

/-! ### Lanes and the fold (R150 to R155) -/

theorem lanePoly_eq_messagePoly {lane : List Byte} (h : lane.length = 16) : lanePoly lane = messagePoly lane := by
  rw [← revBits_leNat, h]; rfl

theorem lanesOf_length {n : Nat} {b : List Byte} (hb : 16 * n ≤ b.length) : ∀ lane ∈ lanesOf n b, lane.length = 16 := by
  induction n generalizing b with
  | zero => simp [lanesOf]
  | succ n ih =>
    rw [lanesOf, List.forall_mem_cons]
    exact ⟨by rw [List.length_take]; omega, ih (by rw [List.length_drop]; omega)⟩

/-- The lanes are the bytes they were cut from. -/
theorem lanesOf_flatten (n : Nat) (b : List Byte) : (lanesOf n b).flatten = b.take (16 * n) := by
  induction n generalizing b with
  | zero => simp [lanesOf]
  | succ n ih => rw [lanesOf, List.flatten_cons, ih, Nat.mul_succ, Nat.add_comm, List.take_add]

section
variable {g k1 k2 : Nat}

theorem foldStep_lt (h1 : k1 < 2 ^ 64) (h2 : k2 < 2 ^ 64) {acc : Nat} (hacc : acc < 2 ^ 128) (lane : List Byte) :
    foldStep k1 k2 acc lane < 2 ^ 128 :=
  Nat.xor_lt_two_pow
    (Nat.xor_lt_two_pow (clmul_lt_of_lt (m := 64) (n := 64) (shiftRight_lt hacc) h1)
      (clmul_lt_of_lt (m := 64) (n := 64) (Nat.mod_lt _ (by decide)) h2))
    (revBits_lt 128 _)

/-- A fold step takes the accumulator up one lane and adds the next (R155). -/
theorem residue_foldStep (h1 : residue g k1 = AdjoinRoot.root (toPoly g) ^ 192)
    (h2 : residue g k2 = AdjoinRoot.root (toPoly g) ^ 128) (acc : Nat) (lane : List Byte) :
    residue g (foldStep k1 k2 acc lane) =
      residue g acc * AdjoinRoot.root (toPoly g) ^ 128 + residue g (lanePoly lane) := by
  rw [foldStep, residue_xor, residue_xor, residue_clmul, residue_clmul, h1, h2, residue_split g acc 64]
  ring

theorem foldl_foldStep_lt (h1 : k1 < 2 ^ 64) (h2 : k2 < 2 ^ 64) (lanes : List (List Byte)) {acc : Nat}
    (hacc : acc < 2 ^ 128) : lanes.foldl (foldStep k1 k2) acc < 2 ^ 128 := by
  induction lanes generalizing acc with
  | nil => exact hacc
  | cons lane lanes ih => exact ih (foldStep_lt h1 h2 hacc lane)

/-- The fold appends its lanes to the message that the accumulator stands for (R155). -/
theorem residue_foldl_foldStep (h1 : residue g k1 = AdjoinRoot.root (toPoly g) ^ 192)
    (h2 : residue g k2 = AdjoinRoot.root (toPoly g) ^ 128) {lanes : List (List Byte)}
    (hlanes : ∀ lane ∈ lanes, lane.length = 16) (b : List Byte) {acc : Nat} (hacc : residue g acc = residue g (messagePoly b)) :
    residue g (lanes.foldl (foldStep k1 k2) acc) = residue g (messagePoly (b ++ lanes.flatten)) := by
  induction lanes generalizing acc b with
  | nil => simpa using hacc
  | cons lane lanes ih =>
    obtain ⟨hlane, hlanes⟩ := List.forall_mem_cons.1 hlanes
    have hstep : residue g (foldStep k1 k2 acc lane) = residue g (messagePoly (b ++ lane)) := by
      rw [residue_foldStep h1 h2, hacc, lanePoly_eq_messagePoly hlane, messagePoly_append, residue_xor,
        residue_shiftLeft, hlane]
    rw [List.foldl_cons, ih hlanes _ hstep, List.append_assoc, List.flatten_cons]

/-- R155: the accumulator after all lanes of a region is the polynomial of the region with the register XORed in. -/
theorem foldLanes_lanesOf {w : Nat} (hg : g ≠ 0) (h1 : k1 < 2 ^ 64) (h2 : k2 < 2 ^ 64) (hk1 : k1 = pmod (2 ^ 192) g)
    (hk2 : k2 = pmod (2 ^ 128) g) (r : BitVec w) {b : List Byte} (hb : b ≠ []) (hlen : b.length % 16 = 0) :
    foldLanes k1 k2 r (lanesOf (b.length / 16) b) < 2 ^ 128 ∧
    residue g (foldLanes k1 k2 r (lanesOf (b.length / 16) b)) =
      residue g (messagePoly (xorRegister r (b.take 16) ++ b.drop 16)) := by
  have hpos := List.length_pos_of_ne_nil hb
  obtain ⟨n, hn⟩ : ∃ n, b.length / 16 = n + 1 := ⟨b.length / 16 - 1, by omega⟩
  have hdrop : (b.drop 16).length = 16 * n := by rw [List.length_drop]; omega
  have hlanes := lanesOf_length (Nat.le_of_eq hdrop.symm)
  have hflat : (lanesOf n (b.drop 16)).flatten = b.drop 16 := by
    rw [lanesOf_flatten, List.take_of_length_le (Nat.le_of_eq hdrop)]
  have hfirst : (xorRegister r (b.take 16)).length = 16 := by rw [length_xorRegister, List.length_take]; omega
  rw [hn, lanesOf, foldLanes]
  refine ⟨foldl_foldStep_lt h1 h2 _ (revBits_lt 128 _), ?_⟩
  rw [residue_foldl_foldStep (residue_of_eq_pmod hg hk1) (residue_of_eq_pmod hg hk2) hlanes _
    (congrArg _ (lanePoly_eq_messagePoly hfirst)), hflat]

end

/-- The region of a fold with the register XORed into its first lane has the same raw update (R153). -/
theorem rawUpdate_eq_rawUpdate_first_lane {w : Nat} (hw : w ≤ 128) (p r : BitVec w) {b : List Byte} (hb : 16 ≤ b.length) :
    rawUpdate p r b = rawUpdate p 0 (xorRegister r (b.take 16) ++ b.drop 16) := by
  conv => lhs; rw [← List.take_append_drop 16 b]
  rw [rawUpdate_append, rawUpdate_append, rawUpdate_eq_rawUpdate_xorRegister p r]
  rw [List.length_take]
  omega

/-! ### The final reduction (R156 to R158) -/

section
variable {w g : Nat}

theorem reduceStage1_lt {k3 acc : Nat} (hk : k3 < 2 ^ w) (hacc : acc < 2 ^ 128) : reduceStage1 w k3 acc < 2 ^ (64 + w) :=
  Nat.xor_lt_two_pow (clmul_lt_of_lt (shiftRight_lt (k := 64) (n := 64) hacc) hk)
    (shiftLeft_lt (Nat.mod_lt _ (by decide)))

/-- Stage 1 multiplies by `x^w` (R156). -/
theorem residue_reduceStage1 {k3 : Nat} (hk : residue g k3 = AdjoinRoot.root (toPoly g) ^ (64 + w)) (acc : Nat) :
    residue g (reduceStage1 w k3 acc) = residue g acc * AdjoinRoot.root (toPoly g) ^ w := by
  rw [reduceStage1, residue_xor, residue_clmul, residue_shiftLeft, hk, residue_split g acc 64]
  ring

theorem reduceStage2_lt {k4 r1 : Nat} (hk : k4 < 2 ^ 32) : reduceStage2 k4 r1 < 2 ^ 64 :=
  Nat.xor_lt_two_pow (clmul_lt_of_lt (m := 32) (n := 32) (Nat.mod_lt _ (by decide)) hk) (Nat.mod_lt _ (by decide))

/-- Stage 2 keeps the residue (R157). -/
theorem residue_reduceStage2 {k4 r1 : Nat} (hk : residue g k4 = AdjoinRoot.root (toPoly g) ^ 64) (hr : r1 < 2 ^ 96) :
    residue g (reduceStage2 k4 r1) = residue g r1 := by
  rw [reduceStage2, residue_xor, residue_clmul, hk, Nat.mod_eq_of_lt (shiftRight_lt (k := 64) (n := 32) hr),
    ← residue_split]

/-- What Barrett reduction leaves of `r2`, shifted up by `w`, with the quotient bits that it drops written out. -/
theorem barrett_error (w mu g r2 : Nat) :
    (r2 ^^^ clmul (clmul (r2 >>> w) mu >>> w) g) <<< w =
      clmul (r2 >>> w) (2 ^ (w + w) ^^^ clmul g mu) ^^^ ((r2 % 2 ^ w) <<< w) ^^^ clmul (clmul (r2 >>> w) mu % 2 ^ w) g := by
  apply toPoly_injective
  have hr := toPoly_split r2 w
  have ht := toPoly_split (clmul (r2 >>> w) mu) w
  have htwo : (2 : (ZMod 2)[X]) = 0 := CharTwo.two_eq_zero
  simp only [toPoly_xor, toPoly_clmul, toPoly_shiftLeft, toPoly_two_pow] at *
  linear_combination X ^ w * hr - toPoly g * ht - toPoly g * toPoly (clmul (r2 >>> w) mu % 2 ^ w) * htwo

/-- Long division leaves the remainder when the multiple of the divisor is taken away. -/
theorem xor_clmul_pdiv (a g : Nat) : a ^^^ clmul g (pdiv a g) = pmod a g := by
  apply toPoly_injective
  rw [toPoly_xor, toPoly_clmul, ← pmod_pdiv a g, add_comm, ← add_assoc, CharTwo.add_self_eq_zero, zero_add]

/-- Barrett reduction is exact below `2^(2w)` (R158). -/
theorem barrett_eq_pmod (hg : g ≠ 0) (hdeg : g.log2 = w) {mu r2 : Nat} (hmu : mu = pdiv (2 ^ (w + w)) g)
    (hr : r2 < 2 ^ (w + w)) : barrett w mu g r2 = pmod r2 g := by
  have hglt : g < 2 ^ (w + 1) := hdeg ▸ Nat.lt_log2_self
  have herr : 2 ^ (w + w) ^^^ clmul g mu < 2 ^ w := by
    rw [hmu, xor_clmul_pdiv, ← hdeg]
    exact pmod_lt hg
  have hshifted : (r2 ^^^ clmul (clmul (r2 >>> w) mu >>> w) g) <<< w < 2 ^ (w + w) := by
    rw [barrett_error]
    exact Nat.xor_lt_two_pow
      (Nat.xor_lt_two_pow (clmul_lt_of_lt (shiftRight_lt hr) herr) (shiftLeft_lt (Nat.mod_lt _ (Nat.two_pow_pos w))))
      (clmul_lt (Nat.mod_lt _ (Nat.two_pow_pos w)) hglt)
  have hlt : r2 ^^^ clmul (clmul (r2 >>> w) mu >>> w) g < 2 ^ w := by
    rw [Nat.shiftLeft_eq, Nat.pow_add] at hshifted
    exact Nat.lt_of_mul_lt_mul_right hshifted
  have hres : residue g (r2 ^^^ clmul (clmul (r2 >>> w) mu >>> w) g) = residue g r2 := by simp
  rw [barrett, Nat.mod_eq_of_lt hlt]
  exact eq_pmod_of_residue_eq hg (hdeg.symm ▸ hlt) hres

/-- A reduced value with the residue of a message gives, reversed, the raw update of the message (R159, R111). -/
theorem ofNat_revBits_barrett {p : BitVec w} (h : Reflects p g) {mu r2 : Nat} (hmu : mu = pdiv (2 ^ (w + w)) g)
    (hr : r2 < 2 ^ (w + w)) {b : List Byte}
    (hres : residue g r2 = residue g (messagePoly b) * AdjoinRoot.root (toPoly g) ^ w) :
    BitVec.ofNat w (revBits w (barrett w mu g r2)) = rawUpdate p 0 b := by
  have hupdate : residue g (revBits w (rawUpdate p 0 b).toNat) = residue g r2 := by
    rw [residue_rawUpdate h, hres]; simp
  have hrem : revBits w (rawUpdate p 0 b).toNat = pmod r2 g :=
    eq_pmod_of_residue_eq h.ne_zero (h.degree.symm ▸ revBits_lt w _) hupdate
  rw [barrett_eq_pmod h.ne_zero h.degree hmu hr, ← hrem, revBits_revBits (BitVec.isLt _), BitVec.ofNat_toNat,
    BitVec.setWidth_eq]

end

/-! ### The fold functions (R160) -/

/-- R160 for CRC-32. -/
theorem fold32_eq_update32 (r : Word32) {b : List Byte} (hb : b ≠ []) (hlen : b.length % 16 = 0) :
    fold32 r b = update32 r b := by
  have hpos := List.length_pos_of_ne_nil hb
  have hg := reflects32.ne_zero
  have hk3 : fold32K3 = pmod (2 ^ (64 + 32)) fold32G := by decide +kernel
  have hk4 : fold32K4 = pmod (2 ^ 64) fold32G := by decide +kernel
  obtain ⟨hacc, hres⟩ := foldLanes_lanesOf (k1 := fold32K1) (k2 := fold32K2) hg (by decide) (by decide)
    (by decide +kernel) (by decide +kernel) r hb hlen
  have hstage1 : reduceStage1 32 fold32K3 _ < 2 ^ 96 := reduceStage1_lt (by decide) hacc
  rw [update32, rawUpdate_eq_rawUpdate_first_lane (by decide) _ _ (by omega)]
  refine ofNat_revBits_barrett reflects32 (by decide +kernel) (reduceStage2_lt (by decide)) ?_
  rw [residue_reduceStage2 (residue_of_eq_pmod hg hk4) hstage1, residue_reduceStage1 (residue_of_eq_pmod hg hk3), hres]

/-- R160 for CRC-64. -/
theorem fold64_eq_update64 (r : Word) {b : List Byte} (hb : b ≠ []) (hlen : b.length % 16 = 0) :
    fold64 r b = update64 r b := by
  have hpos := List.length_pos_of_ne_nil hb
  have hg := reflects64.ne_zero
  have hk3 : fold64K3 = pmod (2 ^ (64 + 64)) fold64G := by decide +kernel
  obtain ⟨hacc, hres⟩ := foldLanes_lanesOf (k1 := fold64K1) (k2 := fold64K2) hg (by decide) (by decide)
    (by decide +kernel) (by decide +kernel) r hb hlen
  rw [update64, rawUpdate_eq_rawUpdate_first_lane (by decide) _ _ (by omega)]
  refine ofNat_revBits_barrett reflects64 (by decide +kernel) (reduceStage1_lt (by decide) hacc) ?_
  rw [residue_reduceStage1 (residue_of_eq_pmod hg hk3), hres]

end Sys2Proof.Machine
end

section
/-! SUPPORT. Both routes of the Dispatcher give the checksum (43_dispatch.md R194, R199), so the results of CRC32, CRC64, GEN32
and GEN64 are the checksums of their bytes, wherever the bytes stand (20_memory.md R58). -/

open Sys2Proof.Expected

namespace Sys2Proof.Machine

/-! ### The routes -/

theorem headLen_le (a : Nat) : headLen a ≤ 15 := by
  rw [headLen, BitVec.toNat_and]
  exact Nat.and_le_right

/-- The three parts of a split buffer are the buffer. -/
theorem split_append (b : List Byte) (h n : Nat) : b.take h ++ (b.drop h).take n ++ b.drop (h + n) = b := by
  rw [← List.take_add, List.take_append_drop]

/-- From 31 bytes on the bulk is a nonempty whole number of lanes (R192, R194). -/
theorem bulk_is_lanes (a : Nat) {b : List Byte} (hb : 31 ≤ b.length) :
    (b.drop (headLen a)).take (bulkLen a b.length) ≠ [] ∧
    ((b.drop (headLen a)).take (bulkLen a b.length)).length % 16 = 0 := by
  have hhead := headLen_le a
  have hlen : ((b.drop (headLen a)).take (bulkLen a b.length)).length = (b.length - headLen a) / 16 * 16 := by
    rw [List.length_take, List.length_drop, bulkLen]
    omega
  refine ⟨List.ne_nil_of_length_pos ?_, ?_⟩ <;> omega

theorem genericRoute32_eq_crc32Of (c : Word32) (b : List Byte) : genericRoute32 c b = crc32Of c b := by
  rw [genericRoute32, generic32_eq_update32, crc32Of]

theorem genericRoute64_eq_crc64Of (c : Word) (b : List Byte) : genericRoute64 c b = crc64Of c b := by
  rw [genericRoute64, generic64_eq_update64, crc64Of]

theorem acceleratedRoute32_eq_crc32Of (a : Nat) (c : Word32) {b : List Byte} (hb : 31 ≤ b.length) :
    acceleratedRoute32 a c b = crc32Of c b := by
  obtain ⟨hne, hlanes⟩ := bulk_is_lanes a hb
  simp only [acceleratedRoute32, generic32_eq_update32, fold32_eq_update32 _ hne hlanes]
  simp only [update32, ← rawUpdate_append, split_append, crc32Of]

theorem acceleratedRoute64_eq_crc64Of (a : Nat) (c : Word) {b : List Byte} (hb : 31 ≤ b.length) :
    acceleratedRoute64 a c b = crc64Of c b := by
  obtain ⟨hne, hlanes⟩ := bulk_is_lanes a hb
  simp only [acceleratedRoute64, generic64_eq_update64, fold64_eq_update64 _ hne hlanes]
  simp only [update64, ← rawUpdate_append, split_append, crc64Of]

theorem le_length_of_usesAccelerator {sel : Sel} {n : Nat} (h : usesAccelerator sel n = true) : 31 ≤ n := by
  simp only [usesAccelerator, Config.accelMinLen, Bool.and_eq_true] at h
  exact of_decide_eq_true h.2

/-- R199 for CRC-32: whatever backend is resolved and whatever the address is. -/
theorem route32_eq_crc32Of (sel : Sel) (a : Nat) (c : Word32) (b : List Byte) : route32 sel a c b = crc32Of c b := by
  rw [route32]
  split
  · exact acceleratedRoute32_eq_crc32Of a c (le_length_of_usesAccelerator ‹_›)
  · exact genericRoute32_eq_crc32Of c b

/-- R199 for CRC-64. -/
theorem route64_eq_crc64Of (sel : Sel) (a : Nat) (c : Word) (b : List Byte) : route64 sel a c b = crc64Of c b := by
  rw [route64]
  split
  · exact acceleratedRoute64_eq_crc64Of a c (le_length_of_usesAccelerator ‹_›)
  · exact genericRoute64_eq_crc64Of c b

/-! ### The results of completed commands -/

/-- A command that ends with OK has read the buffer's bytes, and RESULT holds the value computed from them. -/
theorem result_of_finish {s : State} {m : Memory} {a : Nat} {b : List Byte} {value : List Byte → Word} {d : Context}
    (hb : m.holds a b) (hd : (s.finish (fetchBuffer m a b.length) value).contexts[s.cur]? = some d)
    (hok : statusCode d.status = 0) : d.result.value = value b := by
  have raised : ∀ code : StatusCode, code.number ≠ 0 → (s.raise code).contexts[s.cur]? ≠ some d := by
    intro code hcode h
    simp only [State.raise_contexts, List.getElem?_modify_eq, Option.map_eq_map, Option.map_eq_some_iff] at h
    obtain ⟨c, -, rfl⟩ := h
    exact hcode ((statusCode_afterFault code).symm.trans hok)
  rcases fetchBuffer_cases m a b.length with ⟨-, h⟩ | ⟨-, -, h⟩ | ⟨hrange, -⟩
  · rw [h] at hd
    exact absurd hd (raised .range (by decide))
  · rw [h] at hd
    exact absurd hd (raised .memory (by decide))
  · rw [fetchBuffer_ok hrange hb] at hd
    simp only [State.finish, State.complete_contexts, List.getElem?_modify_eq, Option.map_eq_map,
      Option.map_eq_some_iff] at hd
    obtain ⟨c, -, rfl⟩ := hd
    rfl

/-- The result of a completed command whose only checks are the buffer's. -/
theorem result_of_completesWith {i : Instr} {s : State} {a : Nat} {b : List Byte} {x r : Word} {prepare : Context → State}
    {value : Context → List Byte → Word} (h : CompletesWith i s a b x r)
    (hexec : exec i s = withContext s fun c => (prepare c).finish (fetchBuffer s.mem c.bufAddr c.bufLen) (value c))
    (hcur : ∀ c, (prepare c).cur = s.cur) : ∃ c : Context, c.crcin.value = x ∧ r = value c b := by
  obtain ⟨t, c, d, hc, rfl, hn, hx, hmem, ht, hd, hok, rfl⟩ := h
  rw [hexec, withContext_of_some _ hc] at ht
  cases ht
  rw [Context.bufAddr, Context.bufLen, hn, ← hcur c] at hd
  exact ⟨c, hx, result_of_finish hmem hd hok⟩

theorem result_of_completesWith_crc32 {s : State} {a : Nat} {b : List Byte} {x r : Word}
    (h : CompletesWith .crc32 s a b x r) : r = result32 (crc32Of (x.setWidth 32) b) := by
  obtain ⟨c, rfl, rfl⟩ := result_of_completesWith h rfl fun _ => by simp
  exact congrArg result32 (route32_eq_crc32Of _ _ _ _)

theorem result_of_completesWith_crc64 {s : State} {a : Nat} {b : List Byte} {x r : Word}
    (h : CompletesWith .crc64 s a b x r) : r = crc64Of x b := by
  obtain ⟨c, rfl, rfl⟩ := result_of_completesWith h rfl fun _ => by simp
  exact route64_eq_crc64Of _ _ _ _

theorem result_of_completesWith_gen32 {s : State} {a : Nat} {b : List Byte} {x r : Word}
    (h : CompletesWith .gen32 s a b x r) : r = result32 (crc32Of (x.setWidth 32) b) := by
  obtain ⟨c, rfl, rfl⟩ := result_of_completesWith h rfl fun _ => by simp
  exact congrArg result32 (genericRoute32_eq_crc32Of _ _)

theorem result_of_completesWith_gen64 {s : State} {a : Nat} {b : List Byte} {x r : Word}
    (h : CompletesWith .gen64 s a b x r) : r = crc64Of x b := by
  obtain ⟨c, rfl, rfl⟩ := result_of_completesWith h rfl fun _ => by simp
  exact genericRoute64_eq_crc64Of _ _

/-- Settles O36: each result is the checksum of the bytes, a function in which no address occurs. -/
theorem resultsDoNotDependOnTheAddress : Obligations.ResultsDoNotDependOnTheAddress := by
  rintro i s s' a a' b x r r' (rfl | rfl | rfl | rfl) h h'
  · exact (result_of_completesWith_crc32 h).trans (result_of_completesWith_crc32 h').symm
  · exact (result_of_completesWith_crc64 h).trans (result_of_completesWith_crc64 h').symm
  · exact (result_of_completesWith_gen32 h).trans (result_of_completesWith_gen32 h').symm
  · exact (result_of_completesWith_gen64 h).trans (result_of_completesWith_gen64 h').symm

end Sys2Proof.Machine
end

section
/-! SUPPORT. The decoder and the encoder are inverse (30_encoding.md R70, R72, R78), and the assembler answers exactly on the
well-formed lines (R79, R80, R82). -/

namespace Sys2Proof

/-! ### The fields of a command word (R70) -/

theorem rsvField_append_classField_append_wselField (w : Word32) : rsvField w ++ classField w ++ wselField w = w := by
  have hhigh : rsvField w ++ classField w = w.extractLsb' 4 28 := BitVec.extractLsb'_append_extractLsb'_eq_extractLsb' rfl
  rw [hhigh]
  exact BitVec.extractLsb'_append_extractLsb'

@[simp] theorem rsvField_encode (i : Instr) : rsvField (encode i) = 0 := by cases i <;> rfl

@[simp] theorem classField_encode (i : Instr) : classField (encode i) = i.cls := by cases i <;> rfl

@[simp] theorem wselField_encode (i : Instr) : wselField (encode i) = i.wsel := by cases i <;> rfl

/-- A word is the encoding of a command exactly when its three fields are the command's. -/
theorem eq_encode_iff {w : Word32} {i : Instr} :
    w = encode i ↔ rsvField w = 0 ∧ classField w = i.cls ∧ wselField w = i.wsel := by
  constructor
  · rintro rfl
    simp
  · rintro ⟨hr, hc, hw⟩
    rw [← rsvField_append_classField_append_wselField w, hr, hc, hw, encode]

/-! ### The decoder (R72, R78) -/

/-- CLASS and WSEL select a command exactly when they are that command's fields. -/
theorem commandOf_eq_some_iff {cls wsel : BitVec 4} {i : Instr} :
    commandOf cls wsel = some i ↔ cls = i.cls ∧ wsel = i.wsel := by
  constructor
  · intro h
    unfold commandOf at h
    split at h
    case h_8 => cases h
    all_goals
      next hc hw =>
        cases h
        exact ⟨BitVec.eq_of_toNat_eq hc, BitVec.eq_of_toNat_eq hw⟩
  · rintro ⟨rfl, rfl⟩
    cases i <;> rfl

theorem decode_eq_ok_iff {w : Word32} {i : Instr} :
    decode w = .ok i ↔ commandOf (classField w) (wselField w) = some i ∧ rsvField w = 0 := by
  rw [decode]
  cases commandOf (classField w) (wselField w) with
  | none => simp
  | some j =>
    dsimp only
    split
    next hr => simp [hr]
    next hr => simp only [hr, and_false, reduceCtorEq]

theorem decode_eq_ok_iff_eq_encode (w : Word32) (i : Instr) : decode w = .ok i ↔ w = encode i := by
  rw [decode_eq_ok_iff, commandOf_eq_some_iff, eq_encode_iff, and_comm]

/-- Settles O1: the words by evaluation, the equivalence field by field. -/
theorem eachCommandIsSelectedByItsOneWord : Obligations.EachCommandIsSelectedByItsOneWord :=
  ⟨rfl, rfl, rfl, rfl, rfl, rfl, rfl, decode_eq_ok_iff_eq_encode⟩

/-! ### The assembler (R79, R80, R82) -/

theorem takesBuffer_eq_true_iff {m : Instr} : m.takesBuffer = true ↔ m ≠ .detect := by cases m <;> decide

theorem isDispatcher_eq_true_iff {m : Instr} : m.isDispatcher = true ↔ m = .crc32 ∨ m = .crc64 := by
  cases m <;> decide

theorem assemble_call {m : Instr} (hm : m.takesBuffer = true) (a n c : Word) :
    assemble (.call m a n c) = some [.set .addr a, .set .len n, .set .crcin c, .issue (encode m)] := if_pos hm

theorem assemble_fresh {m : Instr} (hm : m.isDispatcher = true) (a n : Word) :
    assemble (.fresh m a n) = some [.set .addr a, .set .len n, .set .crcin 0, .issue (encode m)] := if_pos hm

theorem assemble_chain {m : Instr} (hm : m.isDispatcher = true) (a n : Word) :
    assemble (.chain m a n) = some [.set .addr a, .set .len n, .movCrcinResult, .issue (encode m)] := if_pos hm

/-- The assembler answers on the lines it accepts, and on no others. -/
theorem isSome_assemble (l : AsmLine) : (assemble l).isSome = l.wf := by
  cases l with
  | command i => rfl
  | word v => rfl
  | set r v => exact Option.isSome_map
  | mov dst src => cases dst <;> cases src <;> rfl
  | read r => exact Option.isSome_map
  | call m a n c => cases hm : m.takesBuffer <;> simp [assemble, AsmLine.wf, hm]
  | fresh m a n => cases hm : m.isDispatcher <;> simp [assemble, AsmLine.wf, hm]
  | chain m a n => cases hm : m.isDispatcher <;> simp [assemble, AsmLine.wf, hm]

/-- Settles O49: an equation per form of line, then the lines on which the assembler answers. -/
theorem pseudoInstructionsExpandAsTheTableSays : Obligations.PseudoInstructionsExpandAsTheTableSays := by
  refine ⟨fun m a n c hm => ?_, fun m a n hm => ?_, fun _ => rfl, fun _ => rfl, fun _ => ⟨rfl, rfl, rfl⟩, isSome_assemble⟩
  · exact assemble_call (takesBuffer_eq_true_iff.mpr hm) a n c
  · have hd := isDispatcher_eq_true_iff.mpr hm
    exact ⟨assemble_fresh hd a n, assemble_chain hd a n⟩

end Sys2Proof
end

section
/-! PROOFS. The statements of 40_generic.md (R105 to R111): the laws of the raw update, the tables, the Generic Computer's
steps and schedule, and the raw update as a remainder. -/

open Sys2Proof.Expected

namespace Sys2Proof.Machine

/-! ### The laws of the raw update (R105) -/

/-- Byte `j` takes in the register's byte `j` (R105, law 4). -/
theorem getElem_xorRegister {w : Nat} (r : BitVec w) (b : List Byte) {j : Nat} (hj : j < b.length) :
    (xorRegister r b)[j]'(by rwa [length_xorRegister]) = b[j] ^^^ (r >>> (8 * j)).setWidth 8 := by
  induction b generalizing r j with
  | nil => simp at hj
  | cons x b ih =>
    cases j with
    | zero => simp [xorRegister]
    | succ j =>
      simp only [xorRegister, List.getElem_cons_succ]
      rw [ih (r >>> 8) (Nat.lt_of_succ_lt_succ hj), ← BitVec.shiftRight_add, Nat.mul_succ, Nat.add_comm 8]

/-- The two readings of law 4's `B'` agree: past the register's width there is nothing to XOR. -/
theorem withRegister_eq_xorRegister {w : Nat} (hw : 8 ∣ w) (r : BitVec w) (b : List Byte) :
    withRegister r b = xorRegister r b := by
  apply List.ext_getElem
  · rw [withRegister, List.length_mapIdx, length_xorRegister]
  · intro j hj hj'
    rw [length_xorRegister] at hj'
    rw [getElem_xorRegister r b hj']
    simp only [withRegister, List.getElem_mapIdx, BitVec.setWidth_ushiftRight_eq_extractLsb]
    split
    · rfl
    · next hpast =>
      have hzero : r >>> (8 * j) = 0 := BitVec.ushiftRight_eq_zero (by omega)
      simp [← BitVec.setWidth_ushiftRight_eq_extractLsb, hzero]

/-- Law 4 in the spec's pairing of bytes. -/
theorem rawUpdate_eq_rawUpdate_withRegister {w : Nat} (hw : 8 ∣ w) (p r : BitVec w) {b : List Byte}
    (h : w ≤ 8 * b.length) : rawUpdate p r b = rawUpdate p 0 (withRegister r b) := by
  rw [withRegister_eq_xorRegister hw, ← rawUpdate_eq_rawUpdate_xorRegister p r h]

theorem update32_append (r : Word32) (b c : List Byte) : update32 r (b ++ c) = update32 (update32 r b) c :=
  rawUpdate_append poly32 r b c

theorem update64_append (r : Word) (b c : List Byte) : update64 r (b ++ c) = update64 (update64 r b) c :=
  rawUpdate_append poly64 r b c

/-- Chaining of the external checksum: the complement on the way out undoes the one on the way in. -/
theorem crc32Of_append (r : Word32) (b c : List Byte) : crc32Of r (b ++ c) = crc32Of (crc32Of r b) c := by
  simp only [crc32Of, update32_append, BitVec.not_not]

theorem crc64Of_append (r : Word) (b c : List Byte) : crc64Of r (b ++ c) = crc64Of (crc64Of r b) c := by
  simp only [crc64Of, update64_append, BitVec.not_not]

/-- Settles O11, each law by its lemma about the raw update at any width; the check values by evaluation. -/
theorem rawUpdateAndChecksumLaws : Obligations.RawUpdateAndChecksumLaws := by
  refine ⟨fun r => ⟨rfl, BitVec.not_not⟩, fun r => ⟨rfl, BitVec.not_not⟩, ?chain32, ?chain64, ?linear32, ?linear64,
    ?absorb32, ?absorb64, ?check32, ?check64⟩
  case chain32 => exact fun r b c => ⟨update32_append r b c, crc32Of_append r b c⟩
  case chain64 => exact fun r b c => ⟨update64_append r b c, crc64Of_append r b c⟩
  case linear32 => exact fun r q b c h => rawUpdate_xor poly32 r q h
  case linear64 => exact fun r q b c h => rawUpdate_xor poly64 r q h
  case absorb32 => exact fun r b h => rawUpdate_eq_rawUpdate_withRegister (by decide) poly32 r (by omega)
  case absorb64 => exact fun r b h => rawUpdate_eq_rawUpdate_withRegister (by decide) poly64 r (by omega)
  case check32 => decide +kernel
  case check64 => decide +kernel

/-! ### The tables (R106) -/

/-- The closed form of every row: the index with `k + 1` zero bytes. -/
theorem tableEntry_eq_rawUpdate {w : Nat} (p : BitVec w) (k : Nat) (i : Byte) :
    tableEntry p k i = rawUpdate p (i.setWidth w) (List.replicate (k + 1) 0) := by
  rw [tableEntry_eq_bitSteps, rawUpdate_replicate_zero]

/-- Settles O12: row 0 and the recurrence are the ROM's definition, the closed form is the lemma above, and the samples are
evaluated. -/
theorem tableEntriesAreByteContributions : Obligations.TableEntriesAreByteContributions := by
  refine ⟨?row0, fun _ _ => rfl, fun _ _ => rfl, ?closed32, ?closed64, ?samples⟩
  case row0 => exact fun i => ⟨rfl, tableRow0_eq poly32 i, rfl, tableRow0_eq poly64 i⟩
  case closed32 => exact fun k i => tableEntry_eq_rawUpdate poly32 k.val i
  case closed64 => exact fun k i => tableEntry_eq_rawUpdate poly64 k.val i
  case samples => decide +kernel

/-! ### The byte step and the chunk steps (R107 to R109) -/

/-- The rule's mask and the model's cut to a byte are the same. -/
theorem setWidth_and_255 {w : Nat} (hw : 8 ≤ w) (x : BitVec w) : (x &&& 0xFF).setWidth 8 = x.setWidth 8 := by
  have hmask : (0xFF : BitVec w).setWidth 8 = BitVec.allOnes 8 := BitVec.setWidth_ofNat_of_le hw 0xFF
  rw [BitVec.setWidth_and, hmask, BitVec.and_allOnes]

/-- Settles O13: the formula is the byte step's definition once the mask is dropped; the second half is R107's lemma. -/
theorem byteStepIsTheRawUpdateOfOneByte : Obligations.ByteStepIsTheRawUpdateOfOneByte := by
  constructor
  · intro r b
    rw [setWidth_and_255 (by decide)]
    exact ⟨rfl, byteStep32_eq_update32 r b⟩
  · intro r b
    rw [setWidth_and_255 (by decide)]
    exact ⟨rfl, byteStep64_eq_update64 r b⟩

theorem toNat_append_byte {n : Nat} (x : BitVec n) (b : Byte) : (x ++ b).toNat = b.toNat + 256 * x.toNat := by
  rw [BitVec.toNat_append, ← Nat.shiftLeft_add_eq_or_of_lt b.isLt, Nat.shiftLeft_eq]
  omega

/-- The little-endian reading of four bytes is their concatenation, the last byte on top. -/
theorem leNat_four_bytes (b0 b1 b2 b3 : Byte) :
    leNat [b0, b1, b2, b3] = (b3 ++ b2 ++ b1 ++ b0 : BitVec (8 + 8 + 8 + 8)).toNat := by
  simp only [toNat_append_byte, leNat, Nat.mul_zero, Nat.add_zero]

/-- Settles O14: the rule's `w` is the model's, and the chunk step is the raw update by the lemma on slice-by-8. -/
theorem sliceByEightIsTheRawUpdateOfEightBytes : Obligations.SliceByEightIsTheRawUpdateOfEightBytes := by
  rintro r w b0 b1 b2 b3 b4 b5 b6 b7 rfl
  have hle : BitVec.ofNat 32 (leNat [b0, b1, b2, b3]) = (b3 ++ b2 ++ b1 ++ b0 : BitVec (8 + 8 + 8 + 8)) := by
    rw [leNat_four_bytes]; exact BitVec.ofNat_toNat _ _
  refine ⟨?_, chunk32_eq_update32 r b0 b1 b2 b3 b4 b5 b6 b7⟩
  rw [chunk32, hle]

/-- Settles O15, as O14 with the four bytes zero-extended. -/
theorem sliceByFourIsTheRawUpdateOfFourBytes : Obligations.SliceByFourIsTheRawUpdateOfFourBytes := by
  rintro r w b0 b1 b2 b3 rfl
  have hle : BitVec.ofNat 64 (leNat [b0, b1, b2, b3]) =
      (b3 ++ b2 ++ b1 ++ b0 : BitVec (8 + 8 + 8 + 8)).setWidth 64 := by
    rw [leNat_four_bytes, BitVec.ofNat_toNat]
  refine ⟨?_, chunk64_eq_update64 r b0 b1 b2 b3⟩
  rw [chunk64, hle]

/-! ### The schedule (R110) -/

theorem generic32_of_length_lt (r : Word32) {b : List Byte} (h : b.length < 8) : generic32 r b = b.foldl byteStep32 r := by
  rw [generic32]
  rintro b0 b1 b2 b3 b4 b5 b6 b7 bs rfl
  simp only [List.length_cons] at h
  omega

theorem generic64_of_length_lt (r : Word) {b : List Byte} (h : b.length < 4) : generic64 r b = b.foldl byteStep64 r := by
  rw [generic64]
  rintro b0 b1 b2 b3 bs rfl
  simp only [List.length_cons] at h
  omega

/-- Settles O16: the schedule by the two equations of each datapath, then R110's equality. -/
theorem genericDatapathIsTheRawUpdate : Obligations.GenericDatapathIsTheRawUpdate :=
  ⟨fun _ _ _ _ _ _ _ _ _ _ => rfl, fun r _ => generic32_of_length_lt r, fun _ _ _ _ _ _ => rfl,
    fun r _ => generic64_of_length_lt r, generic32_eq_update32, generic64_eq_update64⟩

/-! ### The raw update as a remainder (R111) -/

/-- R111 at any width and polynomial: the reversed register lies below the modulus, so it is the remainder of anything it is
congruent to. -/
theorem toNat_rawUpdate_eq_revBits_pmod {w g : Nat} {p : BitVec w} (h : Reflects p g) (r : BitVec w) (b : List Byte) :
    (rawUpdate p r b).toNat =
      revBits w (pmod ((revBits w r.toNat <<< (8 * b.length)) ^^^ (messagePoly b <<< w)) g) := by
  have hlt : revBits w (rawUpdate p r b).toNat < 2 ^ g.log2 := by
    rw [h.degree]
    exact revBits_lt w _
  have hres : residue g (revBits w (rawUpdate p r b).toNat) =
      residue g ((revBits w r.toNat <<< (8 * b.length)) ^^^ (messagePoly b <<< w)) := by
    rw [residue_rawUpdate h, residue_xor, residue_shiftLeft, residue_shiftLeft]
  rw [← eq_pmod_of_residue_eq h.ne_zero hlt hres, revBits_revBits (rawUpdate p r b).isLt]

/-- Settles O17: both polynomials are the reflected forms of the divisors the rule names. -/
theorem rawUpdateIsAPolynomialRemainder : Obligations.RawUpdateIsAPolynomialRemainder :=
  ⟨toNat_rawUpdate_eq_revBits_pmod reflects32, toNat_rawUpdate_eq_revBits_pmod reflects64⟩

end Sys2Proof.Machine
end

section
/-! PROOFS. The statements of 41_detect.md (R131, R133, R135): the three cases of the detection procedure, and that a known
CAP stays over any run. -/

namespace Sys2Proof.Machine

/-! ### The cases of the detection procedure (R133) -/

theorem detectValue_of_yes {s : State} (h : s.cap = .yes) : detectValue s = true := by simp only [detectValue, h]

theorem detectValue_of_no {s : State} (h : s.cap = .no) : detectValue s = false := by simp only [detectValue, h]

theorem detectValue_of_unknown {s : State} (h : s.cap = .unknown) : detectValue s = accelHw s.platform := by
  simp only [detectValue, h]

theorem detect_of_unknown {s : State} (h : s.cap = .unknown) : detect s = { s with cap := capOf (accelHw s.platform) } := by
  simp only [detect, h]

/-- With CAP known the procedure has no effect, since it queries the platform only while CAP is UNKNOWN. -/
theorem detect_of_known {s : State} (h : s.cap ≠ .unknown) : detect s = s := by
  cases hc : s.cap with
  | unknown => exact absurd hc h
  | no | yes => simp only [detect, hc]

/-- With CAP known the returned value is a function of CAP alone. -/
theorem detectValue_eq_of_cap_eq {s t : State} (hs : s.cap ≠ .unknown) (h : t.cap = s.cap) :
    detectValue t = detectValue s := by
  cases hc : s.cap with
  | unknown => exact absurd hc hs
  | no => rw [detectValue_of_no hc, detectValue_of_no (h.trans hc)]
  | yes => rw [detectValue_of_yes hc, detectValue_of_yes (h.trans hc)]

/-- Settles O7: the conjunction of R131 by definition, then one case of R133 for each value of CAP. -/
theorem detectionProcedureFillsTheCacheOnce : Obligations.DetectionProcedureFillsTheCacheOnce := by
  refine fun s => ⟨rfl, fun h => ?_, fun h => ?_, fun h => ?_⟩
  · exact ⟨detectValue_of_yes h, detect_of_known (by simp [h])⟩
  · exact ⟨detectValue_of_no h, detect_of_known (by simp [h])⟩
  · exact ⟨detectValue_of_unknown h, detect_of_unknown h⟩

/-! ### A known CAP stays (R135) -/

theorem Prepared.cap_of_known {s p : State} (hp : Prepared s p) (hs : s.cap ≠ .unknown) : p.cap = s.cap := by
  rcases hp.cap with h | h
  · exact h
  · rw [h, detect_of_known hs]

theorem exec_cap_of_known {i : Instr} {s t : State} (hs : s.cap ≠ .unknown) (h : exec i s = .next t) : t.cap = s.cap := by
  obtain ⟨c, p, -, hp, ⟨v, rfl⟩ | ⟨code, -, rfl⟩⟩ := exec_next h
  all_goals exact hp.cap_of_known hs

/-- Only the commands touch CAP, and none of them changes a known one. -/
theorem step_cap_of_known {s t : State} (hs : s.cap ≠ .unknown) (h : step s = .next t) : t.cap = s.cap := by
  rcases step_next h with ⟨-, rfl⟩ | ⟨act, rest, p, -, rfl, hcases⟩
  · rfl
  · rcases hcases with ⟨r, v, c, -, -, rfl⟩ | ⟨c, -, -, rfl⟩ | ⟨r, c, -, -, rfl⟩ | ⟨a, b, c, -, -, rfl⟩ |
      ⟨w, i, -, -, hexec⟩ | ⟨w, f, c, -, -, -, rfl⟩
    · rfl
    · rfl
    · rfl
    · rfl
    · exact exec_cap_of_known (s := (s.beginAction act.ctx rest).writeCmd w) hs hexec
    · rfl

/-- What every step keeps, every run keeps. -/
theorem run_keeps {P : State → Prop} (hstep : ∀ {s t : State}, P s → step s = .next t → P t) {k : Nat} {s t : State}
    (hs : P s) (h : Sys2Proof.core.run k s = .next t) : P t := by
  induction k generalizing s with
  | zero =>
    obtain rfl : s = t := Host.Outcome.next.inj h
    exact hs
  | succ k ih =>
    simp only [Host.Core.run] at h
    split at h
    · next s' hs' => exact ih (hstep hs hs') h
    · cases h
    · cases h

/-- Settles O9: the known value of CAP is what every step keeps, and the returned Boolean follows from it. -/
theorem capabilityCacheIsStable : Obligations.CapabilityCacheIsStable := by
  intro k s t hs hrun
  have hcap : t.cap = s.cap :=
    run_keeps (P := (·.cap = s.cap)) (fun hu h => (step_cap_of_known (hu ▸ hs) h).trans hu) rfl hrun
  exact ⟨hcap, detectValue_eq_of_cap_eq hs hcap⟩

end Sys2Proof.Machine
end

section
/-! PROOFS. The statements of 42_accelerated.md (R150 to R160): the folding constants, lanes, the fold, the final reduction,
and the fold datapath as the raw update. -/

open Sys2Proof.Expected

namespace Sys2Proof.Machine

/-! ### The folding constants (R152) -/

/-- The constants that both widths have, by the formulas and degrees of R152. -/
structure FoldConstants (w g k1 k2 k3 mu : Nat) : Prop where
  width : w ≤ 64
  ne_zero : g ≠ 0
  degree : g.log2 = w
  k1_eq : k1 = pmod (2 ^ 192) g
  k2_eq : k2 = pmod (2 ^ 128) g
  k3_eq : k3 = pmod (2 ^ (64 + w)) g
  mu_eq : mu = pdiv (2 ^ (w + w)) g
  mu_degree : mu.log2 = w

theorem foldConstants32 : FoldConstants 32 fold32G fold32K1 fold32K2 fold32K3 fold32Mu := by
  constructor <;> decide +kernel

theorem foldConstants64 : FoldConstants 64 fold64G fold64K1 fold64K2 fold64K3 fold64Mu := by
  constructor <;> decide +kernel

theorem fold32K4_eq_pmod : fold32K4 = pmod (2 ^ 64) fold32G := by decide +kernel

section
variable {w g k1 k2 k3 mu : Nat}

/-- A remainder is of degree below the modulus. -/
theorem FoldConstants.pmod_lt_two_pow (h : FoldConstants w g k1 k2 k3 mu) (a : Nat) : pmod a g < 2 ^ w :=
  h.degree ▸ pmod_lt h.ne_zero

theorem FoldConstants.k1_lt (h : FoldConstants w g k1 k2 k3 mu) : k1 < 2 ^ w := h.k1_eq ▸ h.pmod_lt_two_pow _

theorem FoldConstants.k2_lt (h : FoldConstants w g k1 k2 k3 mu) : k2 < 2 ^ w := h.k2_eq ▸ h.pmod_lt_two_pow _

theorem FoldConstants.k3_lt (h : FoldConstants w g k1 k2 k3 mu) : k3 < 2 ^ w := h.k3_eq ▸ h.pmod_lt_two_pow _

theorem FoldConstants.g_lt (h : FoldConstants w g k1 k2 k3 mu) : g < 2 ^ (w + 1) := h.degree ▸ Nat.lt_log2_self

theorem FoldConstants.mu_lt (h : FoldConstants w g k1 k2 k3 mu) : mu < 2 ^ (w + 1) :=
  h.mu_degree ▸ Nat.lt_log2_self

end

theorem fold32K4_lt : fold32K4 < 2 ^ 32 := fold32K4_eq_pmod ▸ foldConstants32.pmod_lt_two_pow _

/-- Settles O20: the formulas and degrees of each width, the bounds of the remainders, and the table's numbers, which are the
ROM's definitions. -/
theorem foldingConstantsMatchTheirFormulas : Obligations.FoldingConstantsMatchTheirFormulas := by
  have h32 := foldConstants32
  have h64 := foldConstants64
  refine ⟨rfl, h32.k1_eq, h32.k2_eq, h32.k3_eq, fold32K4_eq_pmod, h32.mu_eq, rfl, h64.k1_eq, h64.k2_eq, h64.k3_eq, rfl,
    h64.mu_eq, rfl, rfl, rfl, rfl, rfl, rfl, rfl, rfl, ?below32, ?below64, h32.degree, h32.mu_degree, h64.degree,
    h64.mu_degree⟩
  case below32 => simpa using ⟨h32.k1_lt, h32.k2_lt, h32.k3_lt, fold32K4_lt⟩
  case below64 => simpa using ⟨h64.k1_lt, h64.k2_lt, h64.k3_lt⟩

/-! ### Lanes (R150) -/

/-- Bit `t` of byte `j` is bit `8j + t` of the little-endian reading. -/
theorem testBit_leNat (b : List Byte) {j t : Nat} (hj : j < b.length) (ht : t < 8) :
    (leNat b).testBit (8 * j + t) = b[j].getLsbD t := by
  rw [BitVec.getLsbD, ← leNat_shiftRight_mod b hj, Nat.testBit_mod_two_pow, Nat.testBit_shiftRight]
  simp [ht]

/-- Settles O21: the coefficient is the reversed bit of the little-endian reading. -/
theorem lanePolynomialCoefficients : Obligations.LanePolynomialCoefficients := by
  intro lane hlen
  refine ⟨rfl, lanePoly_eq_messagePoly hlen, revBits_lt 128 _, fun j hj t ht => ?_⟩
  have hbelow : 127 - 8 * j - t < 128 := by omega
  have hindex : 128 - 1 - (127 - 8 * j - t) = 8 * j + t := by omega
  rw [lanePoly, revBits_testBit, hindex, testBit_leNat lane hj ht, decide_eq_true hbelow, Bool.true_and]

/-! ### The fold (R155) -/

/-- The sum of shifted lane polynomials is the message polynomial of the bytes (R151). -/
theorem laneSum_map_lanePoly {lanes : List (List Byte)} (h : ∀ l ∈ lanes, l.length = 16) :
    laneSum (lanes.map lanePoly) = messagePoly lanes.flatten := by
  induction lanes with
  | nil => rfl
  | cons lane lanes ih =>
    obtain ⟨hlane, hlanes⟩ := List.forall_mem_cons.1 h
    have hshift : 8 * lanes.flatten.length = 128 * (lanes.map lanePoly).length := by
      rw [List.length_flatten, List.map_congr_left hlanes, List.map_const', List.sum_replicate, List.length_map,
        smul_eq_mul]
      omega
    rw [List.map_cons, laneSum, ih hlanes, List.flatten_cons, messagePoly_append, lanePoly_eq_messagePoly hlane, hshift]

/-- R155 at either width, with the first lane as R153 writes it. -/
theorem FoldConstants.foldLanes_congruent {w g k1 k2 k3 mu : Nat} (h : FoldConstants w g k1 k2 k3 mu) (hw : 8 ∣ w)
    (r : BitVec w) {lane : List Byte} {lanes : List (List Byte)} (hlen : ∀ l ∈ lane :: lanes, l.length = 16) :
    foldLanes k1 k2 r (lane :: lanes) < 2 ^ 128 ∧
    pmod (foldLanes k1 k2 r (lane :: lanes)) g =
      pmod (laneSum (lanePoly (withRegister r lane) :: lanes.map lanePoly)) g := by
  obtain ⟨hlane, hlanes⟩ := List.forall_mem_cons.1 hlen
  have hfirst : (xorRegister r lane).length = 16 := (length_xorRegister r lane).trans hlane
  have h64 : 2 ^ w ≤ 2 ^ 64 := Nat.pow_le_pow_right (by decide) h.width
  have hsum : laneSum (lanePoly (withRegister r lane) :: lanes.map lanePoly) =
      messagePoly (xorRegister r lane ++ lanes.flatten) := by
    rw [withRegister_eq_xorRegister hw, ← List.map_cons, ← List.flatten_cons]
    exact laneSum_map_lanePoly (List.forall_mem_cons.2 ⟨hfirst, hlanes⟩)
  constructor
  · exact foldl_foldStep_lt (h.k1_lt.trans_le h64) (h.k2_lt.trans_le h64) lanes (revBits_lt 128 _)
  · rw [← residue_eq_iff h.ne_zero, hsum, foldLanes]
    exact residue_foldl_foldStep (residue_of_eq_pmod h.ne_zero h.k1_eq) (residue_of_eq_pmod h.ne_zero h.k2_eq) hlanes _
      (congrArg _ (lanePoly_eq_messagePoly hfirst))

/-- Settles O22, by the fold invariant at each width. -/
theorem foldAccumulatorStaysCongruent : Obligations.FoldAccumulatorStaysCongruent :=
  ⟨fun r _ _ => foldConstants32.foldLanes_congruent (by decide) r,
    fun r _ _ => foldConstants64.foldLanes_congruent (by decide) r⟩

/-! ### The final reduction (R156 to R158) -/

section
variable {w g k1 k2 k3 mu : Nat}

/-- R156 at either width. -/
theorem FoldConstants.pmod_reduceStage1 (h : FoldConstants w g k1 k2 k3 mu) (A : Nat) :
    pmod (reduceStage1 w k3 A) g = pmod (A <<< w) g := by
  rw [← residue_eq_iff h.ne_zero, residue_reduceStage1 (residue_of_eq_pmod h.ne_zero h.k3_eq), residue_shiftLeft]

/-- What is left when the multiple of `g` that Barrett reduction finds is taken away lies below `g`'s degree: shifted up by
`w`, each of its three parts is below `2^(2w)`. -/
theorem FoldConstants.barrett_remainder_lt (h : FoldConstants w g k1 k2 k3 mu) {R : Nat} (hR : R < 2 ^ (w + w)) :
    R ^^^ clmul (clmul (R >>> w) mu >>> w) g < 2 ^ w := by
  have hmod : ∀ a, a % 2 ^ w < 2 ^ w := fun a => Nat.mod_lt a (Nat.two_pow_pos w)
  have hmu : 2 ^ (w + w) ^^^ clmul g mu < 2 ^ w := by
    rw [h.mu_eq, xor_clmul_pdiv]
    exact h.pmod_lt_two_pow _
  have hshifted : (R ^^^ clmul (clmul (R >>> w) mu >>> w) g) <<< w < 2 ^ (w + w) :=
    barrett_error w mu g R ▸ Nat.xor_lt_two_pow
      (Nat.xor_lt_two_pow (clmul_lt_of_lt (shiftRight_lt hR) hmu) (shiftLeft_lt (hmod R))) (clmul_lt (hmod _) h.g_lt)
  rwa [Nat.shiftLeft_eq, Nat.pow_add, Nat.mul_lt_mul_right (Nat.two_pow_pos w)] at hshifted

/-- A multiple of `g` that leaves less than `g`'s degree is the quotient's. -/
theorem FoldConstants.eq_pdiv_of_xor_clmul_lt (h : FoldConstants w g k1 k2 k3 mu) {R q : Nat}
    (hlt : R ^^^ clmul q g < 2 ^ w) : q = pdiv R g := by
  have hdeg : (toPoly (R ^^^ clmul q g)).degree < (toPoly g).degree := by
    rw [Polynomial.degree_eq_natDegree (toPoly_ne_zero h.ne_zero), toPoly_natDegree h.ne_zero, h.degree]
    exact toPoly_degree_lt_iff.2 hlt
  have hsum : toPoly (R ^^^ clmul q g) + toPoly g * toPoly q = toPoly R := by
    rw [toPoly_xor, toPoly_clmul, mul_comm (toPoly q), add_assoc, CharTwo.add_self_eq_zero, add_zero]
  apply toPoly_injective
  rw [toPoly_pdiv h.ne_zero, (Polynomial.div_modByMonic_unique _ _ (toPoly_monic h.ne_zero) ⟨hsum, hdeg⟩).1]

/-- R158 at either width. -/
theorem FoldConstants.barrett_exact (h : FoldConstants w g k1 k2 k3 mu) {R : Nat} (hR : R < 2 ^ (w + w)) :
    clmul (R >>> w) mu < 2 ^ (w + w) ∧ clmul (R >>> w) mu >>> w = pdiv R g ∧ barrett w mu g R = pmod R g :=
  ⟨clmul_lt (shiftRight_lt hR) h.mu_lt, h.eq_pdiv_of_xor_clmul_lt (h.barrett_remainder_lt hR),
    barrett_eq_pmod h.ne_zero h.degree h.mu_eq hR⟩

end

/-- Settles O23: stage 1 at each width, then stage 2, which keeps the residue of a value below 2^96. -/
theorem reductionStagesKeepCongruence : Obligations.ReductionStagesKeepCongruence := by
  constructor
  · intro A hA
    have hstage1 : reduceStage1 32 fold32K3 A < 2 ^ 96 := reduceStage1_lt foldConstants32.k3_lt hA
    have hmod := foldConstants32.pmod_reduceStage1 A
    have hstage2 : pmod (reduceStage2 fold32K4 (reduceStage1 32 fold32K3 A)) fold32G =
        pmod (reduceStage1 32 fold32K3 A) fold32G :=
      (residue_eq_iff foldConstants32.ne_zero).1
        (residue_reduceStage2 (residue_of_eq_pmod foldConstants32.ne_zero fold32K4_eq_pmod) hstage1)
    exact ⟨hstage1, hmod, reduceStage2_lt fold32K4_lt, hstage2.trans hmod⟩
  · exact fun A hA => ⟨reduceStage1_lt foldConstants64.k3_lt hA, foldConstants64.pmod_reduceStage1 A⟩

/-- Settles O24: Barrett reduction at each width. -/
theorem barrettReductionIsExact : Obligations.BarrettReductionIsExact :=
  ⟨fun _ => foldConstants32.barrett_exact, fun _ => foldConstants64.barrett_exact⟩

/-! ### The fold datapath (R160) -/

/-- Settles O25, by the equality of the two datapaths at each width. -/
theorem foldDatapathIsTheRawUpdate : Obligations.FoldDatapathIsTheRawUpdate :=
  fun _ hb hlen => ⟨fun r => fold32_eq_update32 r hb hlen, fun r => fold64_eq_update64 r hb hlen⟩

end Sys2Proof.Machine
end

section
/-! PROOFS. The statements of 43_dispatch.md: the split of a buffer (R192, R194), both routes and the commands that take them
(R199), the backend that cannot be observed (R203), and the chaining of RESULT (R201). -/

open Sys2Proof.Expected

namespace Sys2Proof.Machine

/-! ### The split (R193, R194) -/

/-- The address wraps at a multiple of 16, so its negation's low four bits lead up to the next multiple. -/
theorem headLen_eq (a : Nat) : headLen a = (2 ^ 64 - a % 2 ^ 64) % 16 := by
  have hlow : headLen a = (0 - BitVec.ofNat 64 a : Word).toNat % 2 ^ 4 := by
    rw [headLen, BitVec.toNat_and]
    exact Nat.and_two_pow_sub_one_eq_mod _ 4
  rw [hlow, BitVec.toNat_sub, BitVec.toNat_ofNat, show (0 : Word).toNat = 0 from rfl]
  omega

theorem add_headLen_mod (a : Nat) : (a + headLen a) % 16 = 0 := by
  rw [headLen_eq]
  omega

theorem le_bulkLen (a : Nat) {n : Nat} (hn : 31 ≤ n) : 16 ≤ bulkLen a n := by
  have hhead := headLen_le a
  rw [bulkLen]
  omega

theorem bulkLen_mod (a n : Nat) : bulkLen a n % 16 = 0 := Nat.mul_mod_left _ _

theorem tailLen_le (a n : Nat) : tailLen a n ≤ 15 := by
  rw [tailLen, bulkLen]
  omega

theorem split_lengths (a : Nat) {n : Nat} (hn : 31 ≤ n) : headLen a + bulkLen a n + tailLen a n = n := by
  have hhead := headLen_le a
  rw [tailLen, bulkLen]
  omega

/-- Checks 1 to 3 of R161 pass exactly on aligned, nonempty, whole lanes in range. -/
theorem foldContract_eq_none_iff {a n : Nat} :
    foldContract a n = none ↔ a + n ≤ 2 ^ 64 ∧ a % 16 = 0 ∧ n % 16 = 0 ∧ n ≠ 0 := by
  rw [foldContract]
  split_ifs <;> simp <;> omega

/-- Settles O28, each fact by its lemma about the split; the contract of R161 follows from them. -/
theorem splitGivesAnAlignedBulkInsideTheBuffer : Obligations.SplitGivesAnAlignedBulkInsideTheBuffer := by
  intro a n _ hn
  have hbulk := le_bulkLen a hn
  have hsum := split_lengths a hn
  refine ⟨headLen_le a, add_headLen_mod a, hbulk, bulkLen_mod a n, tailLen_le a n, hsum, by omega, fun hrange => ?_⟩
  exact foldContract_eq_none_iff.2 ⟨by omega, add_headLen_mod a, bulkLen_mod a n, by omega⟩

/-! ### The threshold (R192) -/

/-- No value of the cell sends a buffer below the threshold to the accelerator. -/
theorem usesAccelerator_of_lt (sel : Sel) {n : Nat} (hn : n < 31) : usesAccelerator sel n = false :=
  Bool.eq_false_iff.2 fun h => absurd (le_length_of_usesAccelerator h) (Nat.not_le.2 hn)

/-- Settles O29, by the backend choice below the threshold and the bulk from it on. -/
theorem shortBuffersTakeTheGenericRoute : Obligations.ShortBuffersTakeTheGenericRoute := by
  refine ⟨rfl, fun sel a c b hb => ?_, fun sel a c b hb => ?_, fun a n _ hn => le_bulkLen a hn⟩
  · simp [route32, usesAccelerator_of_lt sel hb]
  · simp [route64, usesAccelerator_of_lt sel hb]

/-! ### Dispatcher and Generic Computer commands (R199) -/

/-- An ending writes the registers from the buffer and the value alone; the cells play no part. -/
theorem State.finish_contexts_congr {p q : State} {v w : List Byte → Word} (hcontexts : p.contexts = q.contexts)
    (hcur : p.cur = q.cur) (hvalue : ∀ b, v b = w b) (buf : Except StatusCode (List Byte)) :
    (p.finish buf v).contexts = (q.finish buf w).contexts := by
  cases buf with
  | error code => simp only [State.finish, State.raise_contexts, hcontexts, hcur]
  | ok b => simp only [State.finish, State.complete_contexts, hcontexts, hcur, hvalue]

/-- A Dispatcher command leaves the registers of a Generic Computer command whose values are the same: resolution changes no
register, and both check the same buffer. -/
theorem dispatchCommand_contexts {s t u : State} {sel : Sel} {resolve : State → State}
    {value : Sel → Context → List Byte → Word} {value' : Context → List Byte → Word}
    (hcontexts : ∀ p, (resolve p).contexts = p.contexts) (hcur : ∀ p, (resolve p).cur = p.cur)
    (hvalue : ∀ c b, value (resolved sel s) c b = value' c b)
    (ht : dispatchCommand s sel resolve value = .next t) (hu : genericCommand s value' = .next u) :
    t.contexts = u.contexts := by
  obtain ⟨c, hc, rfl⟩ := withContext_next.1 ht
  obtain ⟨c', hc', rfl⟩ := withContext_next.1 hu
  obtain rfl : c = c' := Option.some.inj (hc.symm.trans hc')
  exact State.finish_contexts_congr (hcontexts _) (hcur _) (hvalue c) _

theorem exec_crc32_contexts {s t u : State} (ht : exec .crc32 s = .next t) (hu : exec .gen32 s = .next u) :
    t.contexts = u.contexts := by
  simp only [exec, execCrc32] at ht
  exact dispatchCommand_contexts resolve32_contexts resolve32_cur
    (fun _ _ => by rw [route32_eq_crc32Of, genericRoute32_eq_crc32Of]) ht hu

theorem exec_crc64_contexts {s t u : State} (ht : exec .crc64 s = .next t) (hu : exec .gen64 s = .next u) :
    t.contexts = u.contexts := by
  simp only [exec, execCrc64] at ht
  exact dispatchCommand_contexts resolve64_contexts resolve64_cur
    (fun _ _ => by rw [route64_eq_crc64Of, genericRoute64_eq_crc64Of]) ht hu

/-- Settles O32: each route by its equality with the checksum, each command by its Generic Computer command. -/
theorem bothRoutesGiveTheChecksum : Obligations.BothRoutesGiveTheChecksum :=
  ⟨genericRoute32_eq_crc32Of, genericRoute64_eq_crc64Of, fun a c _ _ hb => acceleratedRoute32_eq_crc32Of a c hb,
    fun a c _ _ hb => acceleratedRoute64_eq_crc64Of a c hb, fun _ _ _ => exec_crc32_contexts,
    fun _ _ _ => exec_crc64_contexts⟩

/-! ### The backend cannot be observed (R203) -/

/-- A Generic Computer command neither reads nor writes a shared cell (R112, R113). -/
theorem genericCommand_withCells {s t : State} {value : Context → List Byte → Word} (cap : Cap) (sel32 sel64 : Sel)
    (h : genericCommand s value = .next t) :
    genericCommand (withCells s cap sel32 sel64) value = .next (withCells t cap sel32 sel64) := by
  obtain ⟨c, hc, rfl⟩ := withContext_next.1 h
  have hfinish : ∀ buf, ((withCells s cap sel32 sel64).readOperands c).finish buf (value c) =
      withCells ((s.readOperands c).finish buf (value c)) cap sel32 sel64 := by
    rintro (code | b) <;> rfl
  exact (withContext_of_some _ hc).trans (congrArg Host.Outcome.next (hfinish _))

/-- A command keeps the issuing context. -/
theorem exec_cur {i : Instr} {s t : State} (h : exec i s = .next t) : t.cur = s.cur := by
  obtain ⟨c, p, -, hp, ⟨v, rfl⟩ | ⟨code, -, rfl⟩⟩ := exec_next h
  · exact hp.cur
  · exact hp.cur

theorem outcome_congr {s t : State} (hcontexts : s.contexts = t.contexts) (hcur : s.cur = t.cur) :
    outcome s = outcome t := by
  rw [outcome, outcome, hcontexts, hcur]

/-- A command that leaves the registers of a command without cells has an outcome without cells. -/
theorem outcome_withCells {i g : Instr} {s t u : State} {cap : Cap} {sel32 sel64 : Sel}
    (hregisters : ∀ {s t u : State}, exec i s = .next t → exec g s = .next u → t.contexts = u.contexts)
    (hcells : ∀ {v : State}, exec g s = .next v →
      exec g (withCells s cap sel32 sel64) = .next (withCells v cap sel32 sel64))
    (ht : exec i s = .next t) (hu : exec i (withCells s cap sel32 sel64) = .next u) : outcome t = outcome u := by
  obtain ⟨c, _, hc, -⟩ := exec_next ht
  obtain ⟨v, hv⟩ := exec_of_some g hc
  have hcontexts : t.contexts = u.contexts := calc
    t.contexts = v.contexts := hregisters ht hv
    _ = u.contexts := (hregisters hu (hcells hv)).symm
  exact outcome_congr hcontexts ((exec_cur ht).trans (exec_cur hu).symm)

/-- Settles O33: CRC32 and CRC64 leave the registers of GEN32 and GEN64, which use no cell. -/
theorem backendCannotBeObserved : Obligations.BackendCannotBeObserved := by
  rintro s t u i cap sel32 sel64 (rfl | rfl) ht hu
  · exact outcome_withCells exec_crc32_contexts (genericCommand_withCells cap sel32 sel64) ht hu
  · exact outcome_withCells exec_crc64_contexts (genericCommand_withCells cap sel32 sel64) ht hu

/-! ### The chaining of RESULT (R201) -/

/-- STATUS.CODE after a fault is the fault's code (R221), so it is OK for no fault. -/
theorem code_eq_ok_of_raise {s : State} {code : StatusCode} {d : Context} (hd : (s.raise code).contexts[s.cur]? = some d)
    (hok : statusCode d.status = 0) : code = .ok := by
  simp only [State.raise_contexts, List.getElem?_modify_eq, Option.map_eq_map, Option.map_eq_some_iff] at hd
  obtain ⟨c, -, rfl⟩ := hd
  exact StatusCode.number_injective ((statusCode_afterFault code).symm.trans hok)

theorem foldContract_ne_ok (a n : Nat) : foldContract a n ≠ some .ok := by
  rw [foldContract]
  split_ifs <;> simp

/-- The result of a completed FOLD command: its buffer met the contract of R161. -/
theorem result_of_completesWith_fold {i : Instr} {s : State} {a : Nat} {b : List Byte} {x r : Word}
    {value : Context → List Byte → Word} (h : CompletesWith i s a b x r) (hexec : exec i s = foldCommand s value) :
    ∃ c : Context, c.crcin.value = x ∧ b ≠ [] ∧ b.length % 16 = 0 ∧ r = value c b := by
  obtain ⟨t, c, d, hc, rfl, hn, hx, hmem, ht, hd, hok, rfl⟩ := h
  rw [hexec, foldCommand, withContext_of_some _ hc, Context.bufAddr, Context.bufLen, hn] at ht
  cases hcontract : foldContract c.addr.value.toNat b.length with
  | some code =>
    simp only [hcontract, Host.Outcome.next.injEq] at ht
    subst ht
    obtain rfl := code_eq_ok_of_raise hd hok
    exact absurd hcontract (foldContract_ne_ok _ _)
  | none =>
    obtain ⟨-, -, hlanes, hlen⟩ := foldContract_eq_none_iff.1 hcontract
    refine ⟨c, hx, List.length_pos_iff.1 (Nat.pos_of_ne_zero hlen), hlanes, ?_⟩
    have hcur : (detect (s.readOperands c)).cur = s.cur := by simp
    rw [← hcur] at hd
    cases hdetect : detectValue (s.readOperands c) with
    | true =>
      simp only [hcontract, hdetect, Host.Outcome.next.injEq, ↓reduceIte] at ht
      subst ht
      exact result_of_finish hmem hd hok
    | false =>
      simp only [hcontract, hdetect, Host.Outcome.next.injEq, Bool.false_eq_true, ↓reduceIte] at ht
      subst ht
      exact absurd (code_eq_ok_of_raise hd hok) (by decide)

theorem result_of_completesWith_fold32 {s : State} {a : Nat} {b : List Byte} {x r : Word}
    (h : CompletesWith .fold32 s a b x r) : r = result32 (crc32Of (x.setWidth 32) b) := by
  obtain ⟨c, rfl, hne, hlanes, rfl⟩ := result_of_completesWith_fold h rfl
  rw [fold32_eq_update32 _ hne hlanes, crc32Of, Context.crcIn32]

theorem result_of_completesWith_fold64 {s : State} {a : Nat} {b : List Byte} {x r : Word}
    (h : CompletesWith .fold64 s a b x r) : r = crc64Of x b := by
  obtain ⟨c, rfl, hne, hlanes, rfl⟩ := result_of_completesWith_fold h rfl
  rw [fold64_eq_update64 _ hne hlanes, crc64Of, Context.crcIn64]

/-- The zero-extended result of a 32-bit command comes back whole when the next one takes CRCIN[31:0] (R73, R74). -/
theorem setWidth_result32 (v : Word32) : (result32 v).setWidth 32 = v := by
  simp [result32]

theorem result32_append (x : Word) (b c : List Byte) :
    result32 (crc32Of (x.setWidth 32) (b ++ c)) =
      result32 (crc32Of ((result32 (crc32Of (x.setWidth 32) b)).setWidth 32) c) := by
  rw [setWidth_result32, crc32Of_append]

/-- Results that are a chaining function of CRCIN and the bytes chain. -/
theorem results_chain {i : Instr} {f : Word → List Byte → Word} {s1 s2 s12 : State} {a1 a2 a12 : Nat} {b1 b2 : List Byte}
    {x r1 r2 r12 : Word} (happend : ∀ x b c, f x (b ++ c) = f (f x b) c)
    (hresult : ∀ {s : State} {a : Nat} {b : List Byte} {x r : Word}, CompletesWith i s a b x r → r = f x b)
    (h1 : CompletesWith i s1 a1 b1 x r1) (h2 : CompletesWith i s2 a2 b2 r1 r2)
    (h12 : CompletesWith i s12 a12 (b1 ++ b2) x r12) : r12 = r2 := by
  rw [hresult h12, hresult h2, hresult h1, happend]

/-- Settles O35: the result of every buffer command is the checksum of its bytes, which chains. -/
theorem resultsChain : Obligations.ResultsChain := by
  intro i s1 s2 s12 a1 a2 a12 b1 b2 x r1 r2 r12 hi h1 h2 h12
  cases i with
  | crc32 => exact results_chain result32_append result_of_completesWith_crc32 h1 h2 h12
  | crc64 => exact results_chain crc64Of_append result_of_completesWith_crc64 h1 h2 h12
  | gen32 => exact results_chain result32_append result_of_completesWith_gen32 h1 h2 h12
  | gen64 => exact results_chain crc64Of_append result_of_completesWith_gen64 h1 h2 h12
  | fold32 => exact results_chain result32_append result_of_completesWith_fold32 h1 h2 h12
  | fold64 => exact results_chain crc64Of_append result_of_completesWith_fold64 h1 h2 h12
  | detect => exact absurd rfl hi

end Sys2Proof.Machine
end

section
/-! PROOFS. The statement of 60_exceptions.md R223: the codes a command word can give, from the decoder (R75, R76) and from the
endings of each command, and for each fault a state that raises it. -/

open Sys2Proof.Expected

namespace Sys2Proof.Machine

/-! ### OPC and the decoder (R75, R76) -/

theorem rsvField_and_255 (w : Word32) : rsvField (w &&& 0xFF) = 0 := by
  rw [rsvField, BitVec.extractLsb'_and]
  exact BitVec.and_zero

theorem classField_and_255 (w : Word32) : classField (w &&& 0xFF) = classField w := by
  rw [classField, BitVec.extractLsb'_and]
  exact BitVec.and_allOnes

theorem wselField_and_255 (w : Word32) : wselField (w &&& 0xFF) = wselField w := by
  rw [wselField, BitVec.extractLsb'_and]
  exact BitVec.and_allOnes

/-- OPC is a command's word exactly when CLASS and WSEL select the command, whatever RSV holds. -/
theorem opc_eq_encode_iff {w : Word32} {i : Instr} :
    w &&& 0xFF = encode i ↔ commandOf (classField w) (wselField w) = some i := by
  rw [eq_encode_iff, rsvField_and_255, classField_and_255, wselField_and_255, commandOf_eq_some_iff]
  exact and_iff_right rfl

theorem encode_mem_assigned (i : Instr) : encode i ∈ assigned := by cases i <;> decide

theorem decode_of_opc_eq_encode {w : Word32} {i : Instr} (h : w &&& 0xFF = encode i) :
    decode w = if rsvField w = 0 then .ok i else .error .reservedBits := by
  rw [decode, opc_eq_encode_iff.1 h]

theorem decode_of_unassigned {w : Word32} (h : w &&& 0xFF ∉ assigned) : decode w = .error .illegalOpcode := by
  cases hcommand : commandOf (classField w) (wselField w) with
  | none => rw [decode, hcommand]
  | some i => exact absurd (opc_eq_encode_iff.2 hcommand ▸ encode_mem_assigned i) h

/-! ### STATUS.CODE after the two endings (R221, 10_state.md R26) -/

theorem statusCode_of_raise {s : State} {code : StatusCode} {d : Context}
    (hd : (s.raise code).contexts[s.cur]? = some d) : statusCode d.status = code.number := by
  simp only [State.raise_contexts, List.getElem?_modify_eq, Option.map_eq_map, Option.map_eq_some_iff] at hd
  obtain ⟨c, -, rfl⟩ := hd
  exact statusCode_afterFault code

theorem statusCode_of_complete {s : State} {v : Word} {d : Context}
    (hd : (s.complete v).contexts[s.cur]? = some d) : statusCode d.status = StatusCode.ok.number := by
  simp only [State.complete_contexts, List.getElem?_modify_eq, Option.map_eq_map, Option.map_eq_some_iff] at hd
  obtain ⟨c, -, rfl⟩ := hd
  exact statusCode_afterOk c.status

/-! ### A command ends as the table says -/

/-- The state `t` is an ending of the command `i`: it completed, or took a fault that the table of R223 gives it. -/
def EndsAsTabled (i : Instr) (t : State) : Prop :=
  (∃ p v, t = State.complete p v) ∨ ∃ p code, mayRaise i code = true ∧ t = State.raise p code

theorem mayRaise_range_memory {i : Instr} (hi : i ≠ .detect) : mayRaise i .range = true ∧ mayRaise i .memory = true := by
  cases i with
  | detect => exact absurd rfl hi
  | _ => decide

theorem mayRaise_of_fold {i : Instr} (hi : i = .fold32 ∨ i = .fold64) {code : StatusCode} (hok : code ≠ .ok)
    (hillegal : code ≠ .illegalOpcode) : mayRaise i code = true := by
  cases code with
  | ok => exact absurd rfl hok
  | illegalOpcode => exact absurd rfl hillegal
  | _ => rcases hi with rfl | rfl <;> rfl

theorem mayRaise_of_foldContract {i : Instr} (hi : i = .fold32 ∨ i = .fold64) {a n : Nat} {code : StatusCode}
    (h : foldContract a n = some code) : mayRaise i code = true := by
  rw [foldContract] at h
  split_ifs at h <;> cases h <;> exact mayRaise_of_fold hi (by decide) (by decide)

/-- The buffer's check raises RANGE or MEMORY, which every command with a buffer may raise. -/
theorem endsAsTabled_finish {i : Instr} (hi : i ≠ .detect) (p : State) (m : Memory) (a n : Nat) (value : List Byte → Word) :
    EndsAsTabled i (p.finish (fetchBuffer m a n) value) := by
  obtain ⟨hrange, hmemory⟩ := mayRaise_range_memory hi
  obtain ⟨v, h⟩ | h | h := p.finish_cases m a n value
  · exact .inl ⟨p, v, h⟩
  · exact .inr ⟨p, .range, hrange, h⟩
  · exact .inr ⟨p, .memory, hmemory, h⟩

theorem foldCommand_endsAsTabled {i : Instr} (hi : i = .fold32 ∨ i = .fold64) {s t : State}
    {value : Context → List Byte → Word} (h : foldCommand s value = .next t) : EndsAsTabled i t := by
  obtain ⟨c, -, rfl⟩ := withContext_next.1 h
  dsimp only
  split
  · next code hcode => exact .inr ⟨_, code, mayRaise_of_foldContract hi hcode, rfl⟩
  · split
    · exact endsAsTabled_finish (by rcases hi with rfl | rfl <;> decide) ..
    · exact .inr ⟨_, .noAccel, mayRaise_of_fold hi (by decide) (by decide), rfl⟩

theorem exec_endsAsTabled {i : Instr} {s t : State} (h : exec i s = .next t) : EndsAsTabled i t := by
  cases i with
  | fold32 => exact foldCommand_endsAsTabled (.inl rfl) h
  | fold64 => exact foldCommand_endsAsTabled (.inr rfl) h
  | detect =>
    obtain ⟨c, -, rfl⟩ := withContext_next.1 h
    exact .inl ⟨_, _, rfl⟩
  | _ =>
    obtain ⟨c, -, rfl⟩ := withContext_next.1 h
    exact endsAsTabled_finish (by decide) ..

theorem EndsAsTabled.mayRaise {i : Instr} {t : State} {d : Context} {code : StatusCode} (h : EndsAsTabled i t)
    (hd : t.contexts[t.cur]? = some d) (hcode : statusCode d.status = code.number) (hok : code ≠ .ok) :
    mayRaise i code = true := by
  obtain ⟨p, v, rfl⟩ | ⟨p, raised, hraised, rfl⟩ := h
  · exact absurd (StatusCode.number_injective (hcode.symm.trans (statusCode_of_complete hd))) hok
  · obtain rfl := StatusCode.number_injective (hcode.symm.trans (statusCode_of_raise hd))
    exact hraised

/-! ### What a word can give -/

/-- One context with `a` in ADDR and `n` in LEN; no address is readable, and the platform has the features if `accel`. -/
def bufferAt (a n : Word) (accel : Bool) : State :=
  { State.reset with
    contexts := [{ Context.reset with addr := .written a, len := .written n, crcin := .written 0 }]
    mem := { regions := [], cells := [] }
    platform := { queryOk := accel, featA := true, featB := true, featC := true, nativeOrder := .le } }

/-- A word that does not decode gives the code of its decode fault and no other. -/
theorem canGive_iff_of_decode_error {w : Word32} {f : DecodeFault} {code : StatusCode} (h : decode w = .error f) :
    canGive w code ↔ code = decodeStatus f := by
  constructor
  · rintro ⟨s, t, d, ht, hd, hcode⟩
    rw [issue, h] at ht
    obtain ⟨c, -, rfl⟩ := withContext_next.1 ht
    exact StatusCode.number_injective (hcode.symm.trans (statusCode_of_raise hd))
  · rintro rfl
    refine ⟨bufferAt 0 0 true, ((bufferAt 0 0 true).writeCmd w).raise (decodeStatus f), _, ?_, rfl, statusCode_afterFault _⟩
    rw [issue, h]
    rfl

theorem mayRaise_of_canGive {w : Word32} {i : Instr} {code : StatusCode} (hw : w &&& 0xFF = encode i)
    (hok : code ≠ .ok) (h : canGive w code) : mayRaise i code = true := by
  have hdecode := decode_of_opc_eq_encode hw
  split_ifs at hdecode
  · obtain ⟨s, t, d, ht, hd, hcode⟩ := h
    rw [issue, hdecode] at ht
    exact (exec_endsAsTabled ht).mayRaise hd hcode hok
  · obtain rfl := (canGive_iff_of_decode_error hdecode).1 h
    cases i <;> rfl

/-- A state in which each command that may raise the fault `code` raises it: the buffer passes every check that comes before
that fault's (R161, R224). -/
def faultingState : StatusCode → State
  | .range => bufferAt 0xFFFFFFFFFFFFFFF0 32 true
  | .misaligned => bufferAt 0x1008 16 true
  | .length => bufferAt 0x1000 24 true
  | .noAccel => bufferAt 0x1000 16 false
  | _ => bufferAt 0x1000 16 true

/-- A word of the command `i` that gives the fault `code`: for RESERVED_BITS one with a bit of RSV set. -/
def faultingWord (i : Instr) (code : StatusCode) : Word32 :=
  if code = .reservedBits then encode i ||| 0x100 else encode i

theorem faultingWord_opc (i : Instr) (code : StatusCode) : faultingWord i code &&& 0xFF = encode i := by
  rw [faultingWord]
  split_ifs <;> cases i <;> rfl

/-- STATUS.CODE of the issuing context after it issues `w`. -/
def codeAfterIssue (w : Word32) (s : State) : Option (BitVec 8) :=
  match issue w s with
  | .next t => (t.contexts[t.cur]?).map fun c => statusCode c.status
  | .fault _ => none
  | .refused _ => none

theorem canGive_of_codeAfterIssue {w : Word32} {s : State} {code : StatusCode}
    (h : codeAfterIssue w s = some code.number) : canGive w code := by
  unfold codeAfterIssue at h
  split at h
  · next t ht =>
    obtain ⟨c, hc, hcode⟩ := Option.map_eq_some_iff.1 h
    exact ⟨s, t, c, ht, hc, hcode⟩
  · cases h
  · cases h

/-- Each Y of the table, run by the model. -/
theorem codeAfterIssue_faulting {i : Instr} {code : StatusCode} (h : mayRaise i code = true) :
    codeAfterIssue (faultingWord i code) (faultingState code) = some code.number := by
  revert h
  cases code <;> cases i <;> decide +kernel

/-- Settles O40: a `-` of the table by what each command can end in, a Y by a word and a state that raise the fault, and the
unassigned row by the decoder. -/
theorem faultTableIsExact : Obligations.FaultTableIsExact := by
  refine ⟨fun i code hok => ⟨?_, fun h => ?_⟩, fun code => ⟨?_, ?_⟩⟩
  · rintro ⟨w, hw, hgive⟩
    exact mayRaise_of_canGive hw hok hgive
  · exact ⟨faultingWord i code, faultingWord_opc i code, canGive_of_codeAfterIssue (codeAfterIssue_faulting h)⟩
  · rintro ⟨w, hw, hgive⟩
    exact (canGive_iff_of_decode_error (decode_of_unassigned hw)).1 hgive
  · rintro rfl
    exact ⟨0, by decide, (canGive_iff_of_decode_error (f := .illegalOpcode) rfl).2 rfl⟩

end Sys2Proof.Machine
end

section
/-! SUPPORT. Every command as one equation, in the terms of the statements: what it does before its ending, the checks it runs,
and the value it computes. -/

open Sys2Proof.Expected

namespace Sys2Proof.Machine

/-! ### Detection and resolution (41_detect.md R133, 43_dispatch.md R190) -/

theorem detectValue_eq_detected (s : State) : detectValue s = detected s := by
  cases h : s.cap <;> simp [detectValue, detected, accelHw, h]

theorem capOf_detected (s : State) : capOf (detected s) = capAfter s := by
  cases h : s.cap <;> simp [capAfter, detected, capOf, h]

theorem capAfter_of_known {s : State} (h : s.cap ≠ .unknown) : capAfter s = s.cap := if_neg h

theorem detect_eq (s : State) : detect s = { s with cap := capAfter s } := by
  by_cases h : s.cap = .unknown
  · rw [detect_of_unknown h, ← detectValue_of_unknown h, detectValue_eq_detected, capOf_detected]
  · rw [detect_of_known h, capAfter_of_known h]

theorem selAfter_of_resolved {sel : Sel} (h : sel ≠ .unresolved) (s : State) : selAfter sel s = sel := if_neg h

theorem capAfterResolve_of_resolved {sel : Sel} (h : sel ≠ .unresolved) (s : State) : capAfterResolve sel s = s.cap :=
  if_neg h

/-- Resolution through a cell that is UNRESOLVED detects and fills the cell. -/
theorem resolve32_of_unresolved {s : State} (h : s.sel32 = .unresolved) :
    resolve32 s = { detect s with sel32 := backendOf (detectValue s) } := by
  simp only [resolve32, h]

theorem resolve64_of_unresolved {s : State} (h : s.sel64 = .unresolved) :
    resolve64 s = { detect s with sel64 := backendOf (detectValue s) } := by
  simp only [resolve64, h]

theorem resolve32_of_resolved {s : State} (h : s.sel32 ≠ .unresolved) : resolve32 s = s := by
  cases hs : s.sel32 with
  | unresolved => exact absurd hs h
  | generic | accel => simp only [resolve32, hs]

theorem resolve64_of_resolved {s : State} (h : s.sel64 ≠ .unresolved) : resolve64 s = s := by
  cases hs : s.sel64 with
  | unresolved => exact absurd hs h
  | generic | accel => simp only [resolve64, hs]

theorem resolve32_eq (s : State) :
    resolve32 s = { s with cap := capAfterResolve s.sel32 s, sel32 := selAfter s.sel32 s } := by
  by_cases h : s.sel32 = .unresolved
  · rw [resolve32_of_unresolved h, detect_eq, detectValue_eq_detected, h]
    rfl
  · rw [resolve32_of_resolved h, selAfter_of_resolved h, capAfterResolve_of_resolved h]

theorem resolve64_eq (s : State) :
    resolve64 s = { s with cap := capAfterResolve s.sel64 s, sel64 := selAfter s.sel64 s } := by
  by_cases h : s.sel64 = .unresolved
  · rw [resolve64_of_unresolved h, detect_eq, detectValue_eq_detected, h]
    rfl
  · rw [resolve64_of_resolved h, selAfter_of_resolved h, capAfterResolve_of_resolved h]

/-! ### The two endings (30_encoding.md R74, 60_exceptions.md R221) -/

section
variable {s : State} {c : Context}

/-- A change of the registers of the issuing context as a replacement of its entry. -/
theorem modifyCur_eq_set (hc : s.contexts[s.cur]? = some c) (f : Context → Context) :
    s.modifyCur f = { s with contexts := s.contexts.set s.cur (f c) } := by
  rw [← State.modifyCur_contexts_eq_set f hc]
  rfl

theorem complete_eq_completed (hc : s.contexts[s.cur]? = some c) (v : Word) : s.complete v = completed s c v :=
  modifyCur_eq_set hc _

theorem raise_eq_faulted (hc : s.contexts[s.cur]? = some c) (code : StatusCode) : s.raise code = faulted s c code :=
  modifyCur_eq_set hc _

end

/-! ### The parts of a command -/

/-- What a command does before its ending: it reads its operands, and fills the cells that its detection or resolution
fills. -/
def prepared (i : Instr) (s : State) (c : Context) : State :=
  match i with
  | .crc32 => { operandsRead s c with cap := capAfterResolve s.sel32 s, sel32 := selAfter s.sel32 s }
  | .crc64 => { operandsRead s c with cap := capAfterResolve s.sel64 s, sel64 := selAfter s.sel64 s }
  | .gen32 | .gen64 => operandsRead s c
  | .fold32 | .fold64 =>
    { operandsRead s c with cap := if foldContract c.bufAddr c.bufLen = none then capAfter s else s.cap }
  | .detect => { s with cap := capAfter s }

/-- The checks of a FOLD command in the order of R161. -/
def foldChecked (s : State) (c : Context) : Except StatusCode (List Byte) :=
  match foldContract c.bufAddr c.bufLen with
  | some code => .error code
  | none => if detected s then fetchBuffer s.mem c.bufAddr c.bufLen else .error .noAccel

/-- The checks of a command: the fault it raises, or the bytes it reads; DETECT reads none. -/
def checked (i : Instr) (s : State) (c : Context) : Except StatusCode (List Byte) :=
  match i with
  | .crc32 | .crc64 | .gen32 | .gen64 => fetchBuffer s.mem c.bufAddr c.bufLen
  | .fold32 | .fold64 => foldChecked s c
  | .detect => .ok []

/-- The value a command completes with, from its bytes. -/
def answer (i : Instr) (s : State) (c : Context) (b : List Byte) : Word :=
  match i with
  | .crc32 | .gen32 | .fold32 => (crc32Of (c.crcin.value.setWidth 32) b).setWidth 64
  | .crc64 | .gen64 | .fold64 => crc64Of c.crcin.value b
  | .detect => if detected s then 1 else 0

@[simp] theorem prepared_contexts (i : Instr) (s : State) (c : Context) : (prepared i s c).contexts = s.contexts := by
  cases i <;> rfl
@[simp] theorem prepared_cur (i : Instr) (s : State) (c : Context) : (prepared i s c).cur = s.cur := by
  cases i <;> rfl
@[simp] theorem prepared_mem (i : Instr) (s : State) (c : Context) : (prepared i s c).mem = s.mem := by
  cases i <;> rfl

section
variable {s : State} {c : Context}

theorem foldChecked_of_some {code : StatusCode} (h : foldContract c.bufAddr c.bufLen = some code) :
    foldChecked s c = .error code := by
  simp only [foldChecked, h]

theorem foldChecked_of_not_detected (h : foldContract c.bufAddr c.bufLen = none) (hd : detected s = false) :
    foldChecked s c = .error .noAccel := by
  simp [foldChecked, h, hd]

theorem foldChecked_of_detected (h : foldContract c.bufAddr c.bufLen = none) (hd : detected s = true) :
    foldChecked s c = fetchBuffer s.mem c.bufAddr c.bufLen := by
  simp [foldChecked, h, hd]

theorem length_of_fetchBuffer {m : Memory} {a n : Nat} {b : List Byte} (h : fetchBuffer m a n = .ok b) :
    b.length = n := by
  rcases fetchBuffer_cases m a n with ⟨-, h'⟩ | ⟨-, -, h'⟩ | ⟨-, b', hlen, -, h'⟩
  · cases h.symm.trans h'
  · cases h.symm.trans h'
  · cases h.symm.trans h'
    exact hlen

/-- The bytes that pass the checks of a FOLD command are a nonempty whole number of lanes. -/
theorem lanes_of_foldChecked {b : List Byte} (h : foldChecked s c = .ok b) : b ≠ [] ∧ b.length % 16 = 0 := by
  cases hcontract : foldContract c.bufAddr c.bufLen with
  | some code => cases (foldChecked_of_some hcontract).symm.trans h
  | none =>
    cases hd : detected s with
    | false => cases (foldChecked_of_not_detected hcontract hd).symm.trans h
    | true =>
      have hlen := length_of_fetchBuffer ((foldChecked_of_detected hcontract hd).symm.trans h)
      obtain ⟨-, -, hlanes, hpos⟩ := foldContract_eq_none_iff.1 hcontract
      exact ⟨List.ne_nil_of_length_pos (by omega), by omega⟩

/-- An ending looks at the value of the bytes it has read and of no others. -/
theorem State.finish_congr {p : State} {buf : Except StatusCode (List Byte)} {v w : List Byte → Word}
    (h : ∀ b, buf = .ok b → v b = w b) : p.finish buf v = p.finish buf w := by
  cases buf with
  | error code => rfl
  | ok b => exact congrArg p.complete (h b rfl)

theorem foldCommand_eq_finish (hc : s.contexts[s.cur]? = some c) (value : Context → List Byte → Word) :
    foldCommand s value = .next ((prepared .fold32 s c).finish (foldChecked s c) (value c)) := by
  rw [foldCommand, withContext_of_some _ hc]
  have hvalue : detectValue (s.readOperands c) = detected s := detectValue_eq_detected _
  have hcap : capAfter (s.readOperands c) = capAfter s := rfl
  cases hcontract : foldContract c.bufAddr c.bufLen with
  | some code => simp only [foldChecked_of_some hcontract, prepared, hcontract]; rfl
  | none =>
    cases hd : detected s with
    | false => simp only [foldChecked_of_not_detected hcontract hd, prepared, hcontract, hvalue, hd, detect_eq, hcap]; rfl
    | true => simp only [foldChecked_of_detected hcontract hd, prepared, hcontract, hvalue, hd, detect_eq, hcap]; rfl

/-- Every command of an existing context: it prepares, runs its checks, and takes their fault or completes with its value. -/
theorem exec_eq_finish (i : Instr) (hc : s.contexts[s.cur]? = some c) :
    exec i s = .next ((prepared i s c).finish (checked i s c) (answer i s c)) := by
  cases i with
  | crc32 =>
    rw [exec, execCrc32, dispatchCommand, withContext_of_some _ hc, resolve32_eq]
    exact congrArg _ (State.finish_congr fun b _ => congrArg result32 (route32_eq_crc32Of ..))
  | crc64 =>
    rw [exec, execCrc64, dispatchCommand, withContext_of_some _ hc, resolve64_eq]
    exact congrArg _ (State.finish_congr fun b _ => route64_eq_crc64Of ..)
  | gen32 =>
    rw [exec, execGen32, genericCommand, withContext_of_some _ hc]
    exact congrArg _ (State.finish_congr fun b _ => congrArg result32 (genericRoute32_eq_crc32Of ..))
  | gen64 =>
    rw [exec, execGen64, genericCommand, withContext_of_some _ hc]
    exact congrArg _ (State.finish_congr fun b _ => genericRoute64_eq_crc64Of ..)
  | fold32 =>
    rw [exec, execFold32, foldCommand_eq_finish hc]
    refine congrArg _ (State.finish_congr fun b hb => ?_)
    obtain ⟨hne, hlanes⟩ := lanes_of_foldChecked hb
    rw [fold32_eq_update32 _ hne hlanes]
    rfl
  | fold64 =>
    rw [exec, execFold64, foldCommand_eq_finish hc]
    refine congrArg _ (State.finish_congr fun b hb => ?_)
    obtain ⟨hne, hlanes⟩ := lanes_of_foldChecked hb
    rw [fold64_eq_update64 _ hne hlanes]
    rfl
  | detect =>
    rw [exec, execDetect, withContext_of_some _ hc, detect_eq, detectValue_eq_detected]
    rfl

theorem exec_of_checked_error {i : Instr} {code : StatusCode} (hc : s.contexts[s.cur]? = some c)
    (h : checked i s c = .error code) : exec i s = .next (faulted (prepared i s c) c code) := by
  rw [exec_eq_finish i hc, h, State.finish, raise_eq_faulted (by simpa using hc)]

theorem exec_of_checked_ok {i : Instr} {b : List Byte} (hc : s.contexts[s.cur]? = some c)
    (h : checked i s c = .ok b) : exec i s = .next (completed (prepared i s c) c (answer i s c b)) := by
  rw [exec_eq_finish i hc, h, State.finish, complete_eq_completed (by simpa using hc)]

end

end Sys2Proof.Machine
end

section
/-! PROOFS. What every step keeps: a legal STATUS and a set FAULT (10_state.md R26, 60_exceptions.md R227), the platform (R20,
R29, 20_memory.md R52), and the machine invariant. -/

open Sys2Proof.Expected

namespace Sys2Proof.Machine

/-! ### STATUS along a step -/

/-- Context `d` exists and its STATUS has the property `P`. -/
def State.HasStatus (P : Word32 → Prop) (d : Nat) (s : State) : Prop := ∃ x, s.contexts[d]? = some x ∧ P x.status

section
variable {P : Word32 → Prop} {d : Nat}

theorem State.HasStatus.modifyCur {s : State} {f : Context → Context} (hf : ∀ c, P c.status → P (f c).status)
    (h : s.HasStatus P d) : (s.modifyCur f).HasStatus P d := by
  obtain ⟨x, hx, hstatus⟩ := h
  by_cases hd : d = s.cur
  · subst hd
    exact ⟨f x, State.modifyCur_getElem_cur f hx, hf x hstatus⟩
  · exact ⟨x, (State.modifyCur_getElem_ne f hd).trans hx, hstatus⟩

theorem setOperand_status (c : Context) (r : OperandReg) (v : Word) : (c.setOperand r v).status = c.status := by
  cases r <;> rfl

/-- A property of STATUS that completing and faulting keep, every step keeps: nothing else writes STATUS (R26). -/
theorem step_keeps_status (hok : ∀ w, P w → P (statusAfterOk w)) (hfault : ∀ w code, P w → P (statusAfterFault code))
    {s t : State} (hs : s.HasStatus P d) (h : step s = .next t) : t.HasStatus P d := by
  rcases step_next h with ⟨-, rfl⟩ | ⟨act, rest, p, -, rfl, hcases⟩
  · exact hs
  · have hbegin : (s.beginAction act.ctx rest).HasStatus P d := hs
    rcases hcases with ⟨r, v, c, -, -, rfl⟩ | ⟨c, -, -, rfl⟩ | ⟨r, c, -, -, rfl⟩ | ⟨a, b, c, -, -, rfl⟩ |
      ⟨w, i, -, -, hexec⟩ | ⟨w, f, c, -, -, -, rfl⟩
    · exact hbegin.modifyCur fun c hc => by rwa [setOperand_status]
    · exact State.HasStatus.modifyCur (s := (s.beginAction act.ctx rest).markUnless c.result.held) (fun _ => id) hbegin
    · exact hs
    · exact hs
    · have hcmd : ((s.beginAction act.ctx rest).writeCmd w).HasStatus P d := hbegin.modifyCur fun _ => id
      obtain ⟨c, p, -, hp, hending⟩ := exec_next hexec
      have hp : p.HasStatus P d := by rwa [State.HasStatus, hp.contexts]
      obtain ⟨v, rfl⟩ | ⟨code, -, rfl⟩ := hending
      · exact hp.modifyCur fun c => hok c.status
      · exact hp.modifyCur fun c => hfault c.status code
    · have hcmd : ((s.beginAction act.ctx rest).writeCmd w).HasStatus P d := hbegin.modifyCur fun _ => id
      exact hcmd.modifyCur fun c => hfault c.status _

end

/-- Settles O41: completing keeps FAULT and faulting sets it. -/
theorem faultBitIsSticky : Obligations.FaultBitIsSticky := by
  intro k d s t x hx hfault hrun
  have hstep {u v : State} (hu : u.HasStatus (statusFault · = true) d) (h : step u = .next v) :
      v.HasStatus (statusFault · = true) d :=
    step_keeps_status (fun w hw => (statusFault_afterOk w).trans hw) (fun _ code _ => statusFault_afterFault code) hu h
  exact run_keeps hstep ⟨x, hx, hfault⟩ hrun

/-! ### The rest of the state along a step -/

/-- What one step does outside the registers: the platform and the number of contexts stay, memory takes at most a store, and a
shared cell is as before or as detection or resolution fills it. -/
structure StepFrame (s t : State) : Prop where
  platform : t.platform = s.platform
  length : t.contexts.length = s.contexts.length
  mem : t.mem = s.mem ∨ ∃ a b, t.mem = s.mem.write a b
  cap : t.cap = s.cap ∨ t.cap = capAfter s
  sel32 : t.sel32 = s.sel32 ∨ (t.sel32 = selAfter s.sel32 s ∧ t.cap = capAfter s)
  sel64 : t.sel64 = s.sel64 ∨ (t.sel64 = selAfter s.sel64 s ∧ t.cap = capAfter s)

theorem StepFrame.refl (s : State) : StepFrame s s := ⟨rfl, rfl, .inl rfl, .inl rfl, .inl rfl, .inl rfl⟩

/-- A change of registers keeps the frame. -/
theorem StepFrame.modifyCur {s p : State} (h : StepFrame s p) (f : Context → Context) : StepFrame s (p.modifyCur f) :=
  ⟨h.platform, (State.modifyCur_contexts_length p f).trans h.length, h.mem, h.cap, h.sel32, h.sel64⟩

theorem selAfter_of_unresolved {sel : Sel} {s : State} (h : sel = .unresolved) :
    selAfter sel s = backendOf (detectValue s) := by
  rw [selAfter, if_pos h, detectValue_eq_detected, backendOf]

theorem Prepared.stepFrame {s p : State} (h : Prepared s p) : StepFrame s p where
  platform := h.platform
  length := congrArg List.length h.contexts
  mem := .inl h.mem
  cap := by rw [← capOf_detected, ← detectValue_eq_detected, ← detect_cap]; exact h.cap
  sel32 := h.sel32.imp_right fun ⟨hs, hsel, hcap⟩ =>
    ⟨hsel.trans (selAfter_of_unresolved hs).symm, by rw [hcap, detect_eq]⟩
  sel64 := h.sel64.imp_right fun ⟨hs, hsel, hcap⟩ =>
    ⟨hsel.trans (selAfter_of_unresolved hs).symm, by rw [hcap, detect_eq]⟩

theorem exec_stepFrame {i : Instr} {s t : State} (h : exec i s = .next t) : StepFrame s t := by
  obtain ⟨c, p, -, hp, ⟨v, rfl⟩ | ⟨code, -, rfl⟩⟩ := exec_next h
  · exact hp.stepFrame.modifyCur _
  · exact hp.stepFrame.modifyCur _

theorem step_stepFrame {s t : State} (h : step s = .next t) : StepFrame s t := by
  rcases step_next h with ⟨-, rfl⟩ | ⟨act, rest, p, -, rfl, hcases⟩
  · exact .refl t
  · have hbegin : StepFrame s (s.beginAction act.ctx rest) := { StepFrame.refl s with }
    rcases hcases with ⟨r, v, c, -, -, rfl⟩ | ⟨c, -, -, rfl⟩ | ⟨r, c, -, -, rfl⟩ | ⟨a, b, c, -, -, rfl⟩ |
      ⟨w, i, -, -, hexec⟩ | ⟨w, f, c, -, -, -, rfl⟩
    · exact hbegin.modifyCur _
    · exact { hbegin.modifyCur _ with }
    · exact { StepFrame.refl s with }
    · exact { StepFrame.refl s with mem := .inr ⟨a.toNat, b, rfl⟩ }
    · have hcommand := exec_stepFrame hexec
      exact { hcommand with length := hcommand.length.trans (State.modifyCur_contexts_length _ _) }
    · exact (hbegin.modifyCur _).modifyCur _

theorem StepFrame.readable {s t : State} (h : StepFrame s t) (a : Nat) : t.mem.readable a = s.mem.readable a := by
  obtain hmem | ⟨x, b, hmem⟩ := h.mem
  · rw [hmem]
  · rw [hmem, Memory.write_readable]

/-- `t` has the platform inputs, the number of contexts and the readable addresses of `s`. -/
structure SamePlatform (s t : State) : Prop where
  inputs : t.platform = s.platform
  length : t.contexts.length = s.contexts.length
  readable : ∀ a, t.mem.readable a = s.mem.readable a

theorem SamePlatform.step {s t u : State} (h : SamePlatform s t) (hstep : Machine.step t = .next u) : SamePlatform s u :=
  have hframe := step_stepFrame hstep
  ⟨hframe.platform.trans h.inputs, hframe.length.trans h.length, fun a => (hframe.readable a).trans (h.readable a)⟩

/-- Settles O53: the frame of each step, along the run. -/
theorem platformStaysFixed : Obligations.PlatformStaysFixed := by
  intro k s t hrun
  have h : SamePlatform s t := run_keeps (P := SamePlatform s) (fun h => h.step) ⟨rfl, rfl, fun _ => rfl⟩ hrun
  exact ⟨h.inputs, h.length, by simpa using h.readable⟩

/-! ### The machine invariant -/

/-- What detection leaves in CAP agrees with the platform (R133). -/
theorem capAfter_agrees {s : State} (h : s.capAgrees) : capAfter s = .yes ↔ accelHw s.platform = true := by
  by_cases hcap : s.cap = .unknown
  · have hdetected : detected s = accelHw s.platform := if_pos hcap
    rw [← capOf_detected, hdetected]
    cases accelHw s.platform <;> simp [capOf]
  · rw [capAfter_of_known hcap]
    exact h hcap

section
variable {sel sel' : Sel} {cap' : Cap} {s : State}

/-- A resolved choice agrees with a known CAP, which detection leaves alone. -/
theorem selAgrees_capAfter (h : selAgrees sel s.cap) : selAgrees sel (capAfter s) := by
  intro hsel
  obtain ⟨hknown, hagrees⟩ := h hsel
  rw [capAfter_of_known hknown]
  exact ⟨hknown, hagrees⟩

/-- What resolution leaves in a cell agrees with the CAP that detection leaves (R190). -/
theorem selAgrees_selAfter (h : selAgrees sel s.cap) : selAgrees (selAfter sel s) (capAfter s) := by
  by_cases hsel : sel = .unresolved
  · rw [selAfter_of_unresolved hsel, detectValue_eq_detected, ← capOf_detected]
    intro _
    cases detected s <;> simp [backendOf, capOf]
  · rw [selAfter_of_resolved hsel]
    exact selAgrees_capAfter h

theorem selAgrees_of_filled (h : selAgrees sel s.cap) (hcap : cap' = s.cap ∨ cap' = capAfter s)
    (hsel : sel' = sel ∨ (sel' = selAfter sel s ∧ cap' = capAfter s)) : selAgrees sel' cap' := by
  obtain rfl | ⟨rfl, rfl⟩ := hsel
  · obtain rfl | rfl := hcap
    · exact h
    · exact selAgrees_capAfter h
  · exact selAgrees_selAfter h

end

theorem StepFrame.inv {s t : State} (h : StepFrame s t) (hs : s.Inv)
    (hstatus : ∀ c ∈ t.contexts, Machine.statusLegal c.status = true) : t.Inv where
  memWf := by
    obtain hmem | ⟨x, b, hmem⟩ := h.mem
    · exact hmem ▸ hs.memWf
    · exact hmem ▸ Memory.write_wf hs.memWf x b
  someContext := List.ne_nil_of_length_pos (h.length ▸ List.length_pos_of_ne_nil hs.someContext)
  statusLegal := hstatus
  capAgrees := by
    rw [State.capAgrees, h.platform]
    obtain hcap | hcap := h.cap
    · exact hcap ▸ hs.capAgrees
    · exact fun _ => hcap ▸ capAfter_agrees hs.capAgrees
  sel32Agrees := selAgrees_of_filled hs.sel32Agrees h.cap h.sel32
  sel64Agrees := selAgrees_of_filled hs.sel64Agrees h.cap h.sel64

/-- Settles O52: STATUS by what completing and faulting leave, the rest by the frame of a step. -/
theorem everyStepKeepsTheInvariant : Obligations.EveryStepKeepsTheInvariant := by
  intro s t hs hstep
  have hframe := step_stepFrame hstep
  refine hframe.inv hs fun y hy => ?_
  obtain ⟨d, hd⟩ := List.mem_iff_getElem?.1 hy
  obtain ⟨hlt, -⟩ := List.getElem?_eq_some_iff.1 hd
  have hlegal : s.HasStatus (statusLegal · = true) d :=
    ⟨_, List.getElem?_eq_getElem (hframe.length ▸ hlt), hs.statusLegal _ (List.getElem_mem _)⟩
  obtain ⟨z, hz, hzlegal⟩ := step_keeps_status (fun w _ => statusLegal_afterOk w)
    (fun _ code _ => statusLegal_afterFault code) hlegal hstep
  exact Option.some.inj (hd.symm.trans hz) ▸ hzlegal

end Sys2Proof.Machine
end

section
/-! PROOFS. The issue of a command word (30_encoding.md R70, R75 to R78), and the steps that run no command. -/

open Sys2Proof.Expected

namespace Sys2Proof.Machine

/-- Settles O2, by evaluation of the decoder. -/
theorem writtenOutWordsDecodeAsTheTableSays : Obligations.WrittenOutWordsDecodeAsTheTableSays :=
  ⟨rfl, rfl, rfl, rfl, rfl, rfl, rfl, rfl, rfl⟩

/-- Settles O5. -/
theorem idleMachineKeepsItsState : Obligations.IdleMachineKeepsItsState := by
  intro s hp
  rw [step, nextAction, hp]

theorem step_of_pending {s : State} {act : HostAction} {rest : List HostAction} (hp : s.pending = act :: rest) :
    step s = portAction act.op (s.beginAction act.ctx rest) := by
  rw [step, nextAction, hp]

theorem issue_of_decode_ok {w : Word32} {i : Instr} (h : decode w = .ok i) (s : State) :
    issue w s = exec i (s.writeCmd w) := by
  rw [issue, h]

theorem issue_of_decode_error {w : Word32} {f : DecodeFault} (h : decode w = .error f) (s : State) :
    issue w s = raiseDecodeFault f (s.writeCmd w) := by
  rw [issue, h]

/-- Settles O3, by what a step and an issue do. -/
theorem stepRunsTheDecodedCommand : Obligations.StepRunsTheDecodedCommand := by
  intro s c w rest i hp hw
  rw [step_of_pending hp, portAction, issue_of_decode_ok hw]
  rfl

/-! ### CMD and the ending of an issue -/

section
variable {s : State} {x : Context}

theorem writeCmd_contexts_eq_set (hx : s.contexts[s.cur]? = some x) (w : Word32) :
    (s.writeCmd w).contexts = s.contexts.set s.cur { x with cmd := w } :=
  State.modifyCur_contexts_eq_set _ hx

theorem writeCmd_getElem_cur (hx : s.contexts[s.cur]? = some x) (w : Word32) :
    (s.writeCmd w).contexts[(s.writeCmd w).cur]? = some { x with cmd := w } :=
  State.modifyCur_getElem_cur _ hx

/-- A word that does not decode writes CMD and STATUS alone (R78). -/
theorem issue_of_undecodable {w : Word32} {f : DecodeFault} (hx : s.contexts[s.cur]? = some x)
    (hw : decode w = .error f) :
    issue w s = .next (faulted s { x with cmd := w } (decodeStatus f)) := by
  rw [issue_of_decode_error hw, raiseDecodeFault, withContext_of_some _ (writeCmd_getElem_cur hx w),
    raise_eq_faulted (writeCmd_getElem_cur hx w), faulted, writeCmd_contexts_eq_set hx, State.writeCmd_cur, List.set_set]
  rfl

end

/-! ### Words that do not decode (R75, R76) -/

theorem exists_encode_of_assigned {w : Word32} (h : w &&& 0xFF ∈ assigned) : ∃ i, w &&& 0xFF = encode i := by
  simp only [assigned, List.mem_cons, List.not_mem_nil, or_false] at h
  rcases h with h | h | h | h | h | h | h
  · exact ⟨.crc32, h⟩
  · exact ⟨.crc64, h⟩
  · exact ⟨.gen32, h⟩
  · exact ⟨.gen64, h⟩
  · exact ⟨.fold32, h⟩
  · exact ⟨.fold64, h⟩
  · exact ⟨.detect, h⟩

/-- RSV is what is left of a word above OPC (R70). -/
theorem rsvField_eq_zero_iff {w : Word32} : rsvField w = 0 ↔ w >>> 8 = 0 := by
  rw [BitVec.toNat_inj.symm, BitVec.toNat_inj.symm, rsvField, BitVec.extractLsb'_toNat, BitVec.toNat_ushiftRight,
    Nat.mod_eq_of_lt (shiftRight_lt (k := 8) (n := 24) w.isLt)]
  rfl

theorem decode_of_reserved {w : Word32} (hopc : w &&& 0xFF ∈ assigned) (hrsv : w >>> 8 ≠ 0) :
    decode w = .error .reservedBits := by
  obtain ⟨i, hi⟩ := exists_encode_of_assigned hopc
  rw [decode_of_opc_eq_encode hi, if_neg (mt rsvField_eq_zero_iff.1 hrsv)]

/-- Settles O4, by the decoder on both kinds of words. -/
theorem undecodableWordRaisesItsFault : Obligations.UndecodableWordRaisesItsFault := by
  intro s c x w rest hp hx
  have hstep {f : DecodeFault} (hw : decode w = .error f) :
      step s = .next (faulted (s.beginAction c rest) { x with cmd := w } (decodeStatus f)) := by
    rw [step_of_pending hp]
    exact issue_of_undecodable (s := s.beginAction c rest) hx hw
  exact ⟨fun hopc => hstep (decode_of_unassigned hopc), fun hopc hrsv => hstep (decode_of_reserved hopc hrsv)⟩

end Sys2Proof.Machine
end

section
/-! PROOFS. What each command does on every operand (40_generic.md R112, R113, 41_detect.md R134, R136, 42_accelerated.md R161
to R163, 43_dispatch.md R197, R198, R200), and that none depends on NATIVE_ORDER (20_memory.md R55). -/

open Sys2Proof.Expected

namespace Sys2Proof.Machine

/-! ### Commands whose only checks are the buffer's -/

section
variable {i : Instr} {s : State} {c : Context}

/-- GEN and CRC commands: RANGE, then MEMORY, else the answer from the buffer. -/
theorem exec_buffer_cases (hc : s.contexts[s.cur]? = some c)
    (hchecked : checked i s c = fetchBuffer s.mem c.addr.value.toNat c.len.value.toNat) :
    (c.addr.value.toNat + c.len.value.toNat > 2 ^ 64 → exec i s = .next (faulted (prepared i s c) c .range)) ∧
    (c.addr.value.toNat + c.len.value.toNat ≤ 2 ^ 64 →
      s.mem.unreadableIn c.addr.value.toNat c.len.value.toNat →
      exec i s = .next (faulted (prepared i s c) c .memory)) ∧
    ∀ b : List Byte, c.addr.value.toNat + c.len.value.toNat ≤ 2 ^ 64 → b.length = c.len.value.toNat →
      s.mem.holds c.addr.value.toNat b → exec i s = .next (completed (prepared i s c) c (answer i s c b)) := by
  refine ⟨fun hrange => ?_, fun hrange hmem => ?_, fun b hrange hlen hmem => ?_⟩
  · exact exec_of_checked_error hc (hchecked.trans (fetchBuffer_range hrange))
  · exact exec_of_checked_error hc (hchecked.trans (fetchBuffer_memory hrange hmem))
  · rw [← hlen] at hchecked hrange
    exact exec_of_checked_ok hc (hchecked.trans (fetchBuffer_ok hrange hmem))

end

/-- Settles O18, by the cases of the buffer check. -/
theorem gen32GivesTheChecksumOrItsFault : Obligations.Gen32GivesTheChecksumOrItsFault := by
  rintro s c _ _ hc rfl rfl
  exact exec_buffer_cases hc rfl

/-- Settles O19, as O18. -/
theorem gen64GivesTheChecksumOrItsFault : Obligations.Gen64GivesTheChecksumOrItsFault := by
  rintro s c _ _ hc rfl rfl
  exact exec_buffer_cases hc rfl

/-- Settles O30: the state before the ending has the resolution in it. -/
theorem crc32ResolvesThenGivesTheChecksumOrItsFault : Obligations.Crc32ResolvesThenGivesTheChecksumOrItsFault := by
  rintro s _ c _ _ hc rfl rfl rfl
  exact exec_buffer_cases hc rfl

/-- Settles O31, as O30. -/
theorem crc64ResolvesThenGivesTheChecksumOrItsFault : Obligations.Crc64ResolvesThenGivesTheChecksumOrItsFault := by
  rintro s _ c _ _ hc rfl rfl rfl
  exact exec_buffer_cases hc rfl

/-! ### FOLD commands (R161) -/

theorem foldContract_range {a n : Nat} (h : a + n > 2 ^ 64) : foldContract a n = some .range := if_pos h

theorem foldContract_misaligned {a n : Nat} (h : a + n ≤ 2 ^ 64) (ha : a % 16 ≠ 0) :
    foldContract a n = some .misaligned := by
  rw [foldContract, if_neg (Nat.not_lt.2 h), if_pos ha]

theorem foldContract_length {a n : Nat} (h : a + n ≤ 2 ^ 64) (ha : a % 16 = 0) (hn : n % 16 ≠ 0 ∨ n = 0) :
    foldContract a n = some .length := by
  rw [foldContract, if_neg (Nat.not_lt.2 h), if_neg (not_not_intro ha), if_pos hn]

/-- The checks of a FOLD command in order, each with the fault it raises. -/
theorem exec_fold_cases {i : Instr} {s p q : State} {c : Context} {a n : Nat} (hi : i = .fold32 ∨ i = .fold64)
    (hc : s.contexts[s.cur]? = some c) (ha : c.addr.value.toNat = a) (hn : c.len.value.toNat = n)
    (hp : p = operandsRead s c) (hq : q = { p with cap := capAfter s }) :
    (a + n > 2 ^ 64 → exec i s = .next (faulted p c .range)) ∧
    (a + n ≤ 2 ^ 64 → a % 16 ≠ 0 → exec i s = .next (faulted p c .misaligned)) ∧
    (a + n ≤ 2 ^ 64 → a % 16 = 0 → n % 16 ≠ 0 ∨ n = 0 → exec i s = .next (faulted p c .length)) ∧
    (a + n ≤ 2 ^ 64 → a % 16 = 0 → n % 16 = 0 → n ≠ 0 →
      (detected s = false → exec i s = .next (faulted q c .noAccel)) ∧
      (detected s = true → s.mem.unreadableIn a n → exec i s = .next (faulted q c .memory)) ∧
      ∀ b : List Byte, detected s = true → b.length = n → s.mem.holds a b →
        exec i s = .next (completed q c (answer i s c b))) := by
  subst ha hn hp hq
  have hchecked : checked i s c = foldChecked s c := by rcases hi with rfl | rfl <;> rfl
  have hprepared : prepared i s c = prepared .fold32 s c := by rcases hi with rfl | rfl <;> rfl
  have early {code} (h : foldContract c.bufAddr c.bufLen = some code) :
      exec i s = .next (faulted (operandsRead s c) c code) := by
    rw [exec_of_checked_error hc (hchecked.trans (foldChecked_of_some h)), hprepared]
    simp [prepared, h, operandsRead]
  refine ⟨fun hrange => early (foldContract_range hrange), fun hrange ha => early (foldContract_misaligned hrange ha),
    fun hrange ha hn => early (foldContract_length hrange ha hn), fun hrange ha hn hpos => ?_⟩
  have hcontract : foldContract c.bufAddr c.bufLen = none := foldContract_eq_none_iff.2 ⟨hrange, ha, hn, hpos⟩
  have hlate : prepared i s c = { operandsRead s c with cap := capAfter s } := by
    rw [hprepared, prepared, if_pos hcontract]
  rw [← hlate]
  refine ⟨fun hd => ?_, fun hd hmem => ?_, fun b hd hlen hmem => ?_⟩
  · exact exec_of_checked_error hc (hchecked.trans (foldChecked_of_not_detected hcontract hd))
  · rw [foldChecked_of_detected hcontract hd] at hchecked
    exact exec_of_checked_error hc (hchecked.trans (fetchBuffer_memory hrange hmem))
  · rw [foldChecked_of_detected hcontract hd, Context.bufLen, ← hlen] at hchecked
    exact exec_of_checked_ok hc (hchecked.trans (fetchBuffer_ok (hlen ▸ hrange) hmem))

/-- Settles O26, by the checks of R161 in order. -/
theorem fold32ChecksItsContractThenGivesTheChecksum : Obligations.Fold32ChecksItsContractThenGivesTheChecksum :=
  fun _ _ _ _ _ _ => exec_fold_cases (.inl rfl)

/-- Settles O27, as O26. -/
theorem fold64ChecksItsContractThenGivesTheChecksum : Obligations.Fold64ChecksItsContractThenGivesTheChecksum :=
  fun _ _ _ _ _ _ => exec_fold_cases (.inr rfl)

/-! ### The empty buffer (R200) -/

theorem outcome_completed {s : State} {c : Context} (hc : s.contexts[s.cur]? = some c) (v : Word) :
    outcome (completed s c v) = some ({ value := v, held := true }, statusAfterOk c.status) := by
  obtain ⟨hlt, -⟩ := List.getElem?_eq_some_iff.1 hc
  simp [outcome, completed, hlt, statusAfterOk]

/-- On an empty buffer nothing is checked and nothing is read. -/
theorem exec_of_empty_buffer {i : Instr} {s : State} {c : Context} (hc : s.contexts[s.cur]? = some c)
    (hn : c.len.value = 0) (hchecked : checked i s c = fetchBuffer s.mem c.bufAddr c.bufLen) :
    ∃ t, exec i s = .next t ∧
      outcome t = some ({ value := answer i s c [], held := true }, statusAfterOk c.status) := by
  have hempty : fetchBuffer s.mem c.bufAddr c.bufLen = .ok [] := by
    rw [Context.bufLen, hn]
    exact fetchBuffer_ok (b := []) (Nat.le_of_lt c.addr.value.isLt) fun i hi => absurd hi (Nat.not_lt_zero i)
  exact ⟨_, exec_of_checked_ok hc (hchecked.trans hempty), outcome_completed (by simpa using hc) _⟩

/-- Settles O34: the checksum of no bytes is the accumulator (R105, law 1). -/
theorem emptyBufferGivesTheAccumulatorBack : Obligations.EmptyBufferGivesTheAccumulatorBack := by
  intro s c m hc hn
  obtain ⟨empty32, empty64, -⟩ := rawUpdateAndChecksumLaws
  have h32 := exec_of_empty_buffer (i := .crc32) (s := { s with mem := m }) hc hn rfl
  have h64 := exec_of_empty_buffer (i := .crc64) (s := { s with mem := m }) hc hn rfl
  simp only [answer, (empty32 _).2] at h32
  simp only [answer, (empty64 _).2] at h64
  exact ⟨h32, h64⟩

/-! ### DETECT (R136) -/

/-- Settles O8: DETECT has no check. -/
theorem detectReturnsTheDetectedValue : Obligations.DetectReturnsTheDetectedValue :=
  fun _ _ hc => exec_of_checked_ok (i := .detect) hc rfl

/-! ### Racing DETECTs (R134) -/

theorem detected_of_cap_eq_capAfter {s t : State} (h : t.cap = capAfter s) : detected t = detected s := by
  rw [detected, h, ← capOf_detected]
  cases detected s <;> simp [capOf]

theorem capAfter_of_cap_eq_capAfter {s t : State} (h : t.cap = capAfter s) : capAfter t = capAfter s := by
  rw [← capOf_detected, ← capOf_detected, detected_of_cap_eq_capAfter h]

/-- The registers after a DETECT that found `v` (R136). -/
def Context.afterDetect (x : Context) (v : Bool) : Context :=
  { x with
    cmd := encode .detect
    result := { value := if v then 1 else 0, held := true }
    status := packStatus (statusFault x.status) .ok }

/-- The state after context `c`, with the registers `x`, has issued DETECT. -/
def State.afterDetect (s : State) (c : Nat) (x : Context) (rest : List HostAction) : State :=
  { s with
    cur := c, pending := rest, cap := capAfter s
    contexts := s.contexts.set c (x.afterDetect (detected s)) }

theorem step_detect {s : State} {c : Nat} {x : Context} {rest : List HostAction}
    (hp : s.pending = ⟨c, .issue (encode .detect)⟩ :: rest) (hx : s.contexts[c]? = some x) :
    step s = .next (s.afterDetect c x rest) := by
  have hx' := writeCmd_getElem_cur (s := s.beginAction c rest) hx (encode .detect)
  rw [step_of_pending hp, portAction, issue_of_decode_ok (i := .detect) rfl, detectReturnsTheDetectedValue _ _ hx',
    completed, writeCmd_contexts_eq_set (s := s.beginAction c rest) hx, State.writeCmd_cur, List.set_set]
  rfl

theorem run_succ_of_next {s t : State} (k : Nat) (h : step s = .next t) :
    Sys2Proof.core.run (k + 1) s = Sys2Proof.core.run k t := by
  have hstep : Sys2Proof.core.step s = .next t := h
  simp only [Host.Core.run, hstep]

/-- The state in which contexts `c` and `d` are about to issue DETECT, in this order. -/
def State.withDetects (s : State) (c d : Nat) : State :=
  { s with pending := [⟨c, .issue (encode .detect)⟩, ⟨d, .issue (encode .detect)⟩] }

/-- Two DETECTs of two contexts, one after the other: both find the same value, since the first leaves it in CAP. -/
theorem run_two_detects {s : State} {c d : Nat} {x y : Context} (hcd : c ≠ d) (hx : s.contexts[c]? = some x)
    (hy : s.contexts[d]? = some y) :
    ∃ t, Sys2Proof.core.run 2 (s.withDetects c d) = .next t ∧ t.cap = capAfter s ∧
      t.contexts = (s.contexts.set c (x.afterDetect (detected s))).set d (y.afterDetect (detected s)) := by
  have hfirst := step_detect (s := s.withDetects c d) rfl hx
  generalize hu : (s.withDetects c d).afterDetect c x _ = u at hfirst
  have hcap : u.cap = capAfter s := hu ▸ rfl
  have hcontexts : u.contexts = s.contexts.set c (x.afterDetect (detected s)) := hu ▸ rfl
  have hsecond : step u = .next (u.afterDetect d y []) :=
    step_detect (hu ▸ rfl) (by rw [hcontexts, List.getElem?_set_ne hcd, hy])
  refine ⟨u.afterDetect d y [], ?_, capAfter_of_cap_eq_capAfter hcap, ?_⟩
  · rw [run_succ_of_next 1 hfirst, run_succ_of_next 0 hsecond]
    rfl
  · rw [State.afterDetect, hcontexts, detected_of_cap_eq_capAfter hcap]

/-- Settles O10: the two orders write the registers of two different contexts. -/
theorem racingDetectsAgree : Obligations.RacingDetectsAgree := by
  intro s c d x y hcd hx hy
  obtain ⟨t, ht, htcap, htcontexts⟩ := run_two_detects hcd hx hy
  obtain ⟨u, hu, hucap, hucontexts⟩ := run_two_detects hcd.symm hy hx
  refine ⟨t, u, ht, hu, ?_, htcap, hucap, ?_⟩
  · rw [htcontexts, hucontexts, List.set_comm _ _ hcd]
  · obtain ⟨hclt, -⟩ := List.getElem?_eq_some_iff.1 hx
    obtain ⟨hdlt, -⟩ := List.getElem?_eq_some_iff.1 hy
    rintro e (rfl | rfl)
    · exact ⟨x.afterDetect (detected s), by simp [htcontexts, hcd.symm, hclt], rfl⟩
    · exact ⟨y.afterDetect (detected s), by simp [htcontexts, hdlt], rfl⟩

/-! ### NATIVE_ORDER (20_memory.md R55) -/

section
variable {s : State} {o : ByteOrder}

/-- Nothing that a command prepares, checks or computes looks at the order. -/
theorem withOrder_prepared (i : Instr) (c : Context) : prepared i (withOrder s o) c = withOrder (prepared i s c) o := by
  cases i <;> rfl

theorem withOrder_checked (i : Instr) (c : Context) : checked i (withOrder s o) c = checked i s c := by
  cases i <;> rfl

theorem withOrder_answer (i : Instr) (c : Context) : answer i (withOrder s o) c = answer i s c := by
  cases i <;> rfl

theorem withOrder_finish (buf : Except StatusCode (List Byte)) (value : List Byte → Word) :
    (withOrder s o).finish buf value = withOrder (s.finish buf value) o := by
  cases buf <;> rfl

end

/-- Settles O37, part by part of the command. -/
theorem nativeOrderChangesNothing : Obligations.NativeOrderChangesNothing := by
  intro i s t o h
  obtain ⟨c, -, hc, -⟩ := exec_next h
  rw [exec_eq_finish i hc] at h
  rw [exec_eq_finish i (s := withOrder s o) hc, withOrder_prepared, withOrder_checked, withOrder_answer, withOrder_finish,
    Host.Outcome.next.inj h]

end Sys2Proof.Machine
end

section
/-! PROOFS. The frame of every command (10_state.md R23, R27, R28, R37, 20_memory.md R51, 70_reset_and_hazards.md R251), and the
faults of a command word (60_exceptions.md R221, R224, R225). -/

open Sys2Proof.Expected

namespace Sys2Proof.Machine

/-! ### What a command leaves alone -/

/-- What an ending leaves alone: FAULT may be set, RESULT and CODE written, and no more. -/
theorem ending_context {s t : State} {c : Context} (hc : s.contexts[s.cur]? = some c)
    (ht : (∃ v, t = s.complete v) ∨ ∃ code, code ≠ .ok ∧ t = s.raise code) :
    ∃ d, t.contexts[s.cur]? = some d ∧ d.cmd = c.cmd ∧ d.addr = c.addr ∧ d.len = c.len ∧ d.crcin = c.crcin ∧
      (statusFault c.status = true → statusFault d.status = true) := by
  obtain ⟨v, rfl⟩ | ⟨code, -, rfl⟩ := ht
  · exact ⟨_, State.modifyCur_getElem_cur _ hc, rfl, rfl, rfl, rfl, fun h => (statusFault_afterOk _).trans h⟩
  · exact ⟨_, State.modifyCur_getElem_cur _ hc, rfl, rfl, rfl, rfl, fun _ => statusFault_afterFault code⟩

/-- Settles O42, by what a command prepares and its two endings. -/
theorem commandsLeaveEverythingElseAlone : Obligations.CommandsLeaveEverythingElseAlone := by
  intro i s t h
  have hframe := exec_stepFrame h
  obtain ⟨c, p, hc, hp, hending⟩ := exec_next h
  have hpc : p.contexts[p.cur]? = some c := by rw [hp.contexts, hp.cur, hc]
  have hregisters := ending_context hpc hending
  rw [hp.cur] at hregisters
  have hrest : t.mem = p.mem ∧ t.pending = p.pending ∧ t.returned = p.returned ∧ t.refusalMark = p.refusalMark := by
    obtain ⟨v, rfl⟩ | ⟨code, -, rfl⟩ := hending <;> exact ⟨rfl, rfl, rfl, rfl⟩
  obtain ⟨hmem, hpending, hreturned, hmark⟩ := hrest
  refine ⟨fun a => by rw [hmem, hp.mem], hframe.length, fun d hd => exec_contexts_ne hd h, fun x hx => ?_,
    hframe.platform, exec_cur h, hpending.trans hp.pending, hreturned.trans hp.returned, fun hs => hmark.trans (hp.mark hs)⟩
  obtain rfl : c = x := Option.some.inj (hc.symm.trans hx)
  exact hregisters

/-! ### Cells and the mark -/

/-- A command changes no cell and no mark but in what it prepares. -/
theorem exec_cells {i : Instr} {s t : State} {c : Context} (hc : s.contexts[s.cur]? = some c) (h : exec i s = .next t) :
    t.cap = (prepared i s c).cap ∧ t.sel32 = (prepared i s c).sel32 ∧ t.sel64 = (prepared i s c).sel64 ∧
      t.refusalMark = (prepared i s c).refusalMark := by
  rw [exec_eq_finish i hc] at h
  cases h
  exact ⟨State.finish_cap .., State.finish_sel32 .., State.finish_sel64 .., State.finish_refusalMark ..⟩

section
variable {i : Instr} {s : State} {c : Context}

theorem prepared_sel32_of_ne (hi : i ≠ .crc32) : (prepared i s c).sel32 = s.sel32 := by
  cases i with
  | crc32 => exact absurd rfl hi
  | _ => rfl

theorem prepared_sel64_of_ne (hi : i ≠ .crc64) : (prepared i s c).sel64 = s.sel64 := by
  cases i with
  | crc64 => exact absurd rfl hi
  | _ => rfl

/-- Every command but DETECT reads the operand registers. -/
theorem prepared_refusalMark_of_ne (hi : i ≠ .detect) :
    (prepared i s c).refusalMark = (s.refusalMark || !(c.addr.held && c.len.held && c.crcin.held)) := by
  cases i with
  | detect => exact absurd rfl hi
  | _ => rfl

end

/-- Settles O43, cell by cell for each command. -/
theorem commandsFillOnlyTheirCells : Obligations.CommandsFillOnlyTheirCells := by
  intro i s t h
  obtain ⟨c, -, hc, -⟩ := exec_next h
  obtain ⟨hcap, hsel32, hsel64, -⟩ := exec_cells hc h
  refine ⟨?generic, fun hi => hsel32.trans (prepared_sel32_of_ne hi), fun hi => hsel64.trans (prepared_sel64_of_ne hi),
    (exec_stepFrame h).cap, ?detect, ?crc32, ?crc64⟩
  case generic => rintro (rfl | rfl) <;> exact hcap
  case detect => rintro rfl; exact hcap
  case crc32 => rintro rfl; exact ⟨hsel32, hcap⟩
  case crc64 => rintro rfl; exact ⟨hsel64, hcap⟩

/-- Settles O45: only a buffer command reads its operands, and each reads all three. -/
theorem commandMarksExactlyUnwrittenOperands : Obligations.CommandMarksExactlyUnwrittenOperands := by
  intro i s t c h hc
  obtain ⟨-, -, -, hmark⟩ := exec_cells hc h
  rw [hmark]
  by_cases hi : i = .detect
  · subst hi
    simp [prepared]
  · rw [prepared_refusalMark_of_ne hi]
    simp [hi, imp_iff_not_or, or_assoc]

/-! ### A command that faults (R221, R225) -/

section
variable {s : State} {c : Context}

theorem faulted_getElem_cur {x : Context} (hx : s.contexts[s.cur]? = some x) (code : StatusCode) :
    (faulted s c code).contexts[s.cur]? = some { c with status := packStatus true code } := by
  obtain ⟨hlt, -⟩ := List.getElem?_eq_some_iff.1 hx
  exact List.getElem?_set_self hlt

theorem completed_getElem_cur {x : Context} (hx : s.contexts[s.cur]? = some x) (v : Word) :
    (completed s c v).contexts[s.cur]? =
      some { c with result := { value := v, held := true }, status := packStatus (statusFault c.status) .ok } := by
  obtain ⟨hlt, -⟩ := List.getElem?_eq_some_iff.1 hx
  exact List.getElem?_set_self hlt

theorem prepared_getElem_cur (hc : s.contexts[s.cur]? = some c) (i : Instr) :
    (prepared i s c).contexts[(prepared i s c).cur]? = some c := by
  rw [prepared_contexts, prepared_cur, hc]

/-- The checks of a command do not look at CMD. -/
theorem checked_writeCmd (i : Instr) (w : Word32) : checked i (s.writeCmd w) { c with cmd := w } = checked i s c := by
  cases i <;> rfl

/-- What a command fills does not depend on CMD. -/
theorem prepared_writeCmd_cells (i : Instr) (w : Word32) :
    (prepared i (s.writeCmd w) { c with cmd := w }).cap = (prepared i s c).cap ∧
    (prepared i (s.writeCmd w) { c with cmd := w }).sel32 = (prepared i s c).sel32 ∧
    (prepared i (s.writeCmd w) { c with cmd := w }).sel64 = (prepared i s c).sel64 := by
  cases i <;> exact ⟨rfl, rfl, rfl⟩

/-- A word whose command's checks fail. -/
theorem issue_of_checked_error {w : Word32} {i : Instr} {code : StatusCode} (hc : s.contexts[s.cur]? = some c)
    (hw : decode w = .ok i) (h : checked i s c = .error code) :
    ∃ t, issue w s = .next t ∧ t.contexts[s.cur]? = some { c with cmd := w, status := packStatus true code } ∧
      t.mem = s.mem ∧ t.cap = (prepared i s c).cap ∧ t.sel32 = (prepared i s c).sel32 ∧
      t.sel64 = (prepared i s c).sel64 := by
  have hcmd := writeCmd_getElem_cur hc w
  have hd := faulted_getElem_cur (c := { c with cmd := w }) (prepared_getElem_cur hcmd i) code
  rw [prepared_cur] at hd
  refine ⟨_, ?_, hd, prepared_mem .., prepared_writeCmd_cells i w⟩
  rw [issue_of_decode_ok hw, exec_of_checked_error hcmd ((checked_writeCmd i w).trans h)]

/-- A word whose command passes its checks. -/
theorem issue_of_checked_ok {w : Word32} {i : Instr} {b : List Byte} (hc : s.contexts[s.cur]? = some c)
    (hw : decode w = .ok i) (h : checked i s c = .ok b) :
    ∃ t d, issue w s = .next t ∧ t.contexts[s.cur]? = some d ∧ statusCode d.status = 0 := by
  have hcmd := writeCmd_getElem_cur hc w
  have hd := completed_getElem_cur (c := { c with cmd := w }) (prepared_getElem_cur hcmd i)
    (answer i (s.writeCmd w) { c with cmd := w } b)
  rw [prepared_cur] at hd
  refine ⟨_, _, ?_, hd, statusCode_packStatus ..⟩
  rw [issue_of_decode_ok hw, exec_of_checked_ok hcmd ((checked_writeCmd i w).trans h)]

/-- Past the contract of R161 the buffer is in range, so a fault of FOLD is NO_ACCEL or MEMORY. -/
theorem code_of_foldChecked_error {code : StatusCode} (hcontract : foldContract c.bufAddr c.bufLen = none)
    (h : foldChecked s c = .error code) : code = .noAccel ∨ code = .memory := by
  cases hd : detected s with
  | false => exact .inl (Except.error.inj ((foldChecked_of_not_detected hcontract hd).symm.trans h)).symm
  | true =>
    obtain ⟨hrange, -⟩ := foldContract_eq_none_iff.1 hcontract
    rw [foldChecked_of_detected hcontract hd] at h
    rcases fetchBuffer_cases s.mem c.bufAddr c.bufLen with ⟨hpast, -⟩ | ⟨-, -, h'⟩ | ⟨-, b, -, -, h'⟩
    · exact absurd hrange (Nat.not_le.2 hpast)
    · exact .inr (Except.error.inj (h'.symm.trans h)).symm
    · cases h'.symm.trans h

theorem capAfterResolve_cases (sel : Sel) (s : State) :
    capAfterResolve sel s = s.cap ∨ capAfterResolve sel s = capAfter s := by
  by_cases h : sel = .unresolved
  · exact .inr (if_pos h)
  · exact .inl (if_neg h)

/-- CAP after a command that faults (R225). -/
theorem prepared_cap_of_error {i : Instr} {code : StatusCode} (h : checked i s c = .error code) :
    (prepared i s c).cap = s.cap ∨ ((prepared i s c).cap = capAfter s ∧
      (i = .crc32 ∨ i = .crc64 ∨ ((i = .fold32 ∨ i = .fold64) ∧ (code = .noAccel ∨ code = .memory)))) := by
  have fold (h : foldChecked s c = .error code) : (prepared .fold32 s c).cap = s.cap ∨
      ((prepared .fold32 s c).cap = capAfter s ∧ (code = .noAccel ∨ code = .memory)) := by
    by_cases hcontract : foldContract c.bufAddr c.bufLen = none
    · exact .inr ⟨if_pos hcontract, code_of_foldChecked_error hcontract h⟩
    · exact .inl (if_neg hcontract)
  cases i with
  | crc32 => exact (capAfterResolve_cases s.sel32 s).imp_right fun h => ⟨h, by simp⟩
  | crc64 => exact (capAfterResolve_cases s.sel64 s).imp_right fun h => ⟨h, by simp⟩
  | gen32 | gen64 => exact .inl rfl
  | fold32 => exact (fold h).imp_right fun ⟨hcap, hcode⟩ => ⟨hcap, by simp [hcode]⟩
  | fold64 => exact (fold h).imp_right fun ⟨hcap, hcode⟩ => ⟨hcap, by simp [hcode]⟩
  | detect => cases h

end

/-- Settles O38: a word that does not decode writes CMD and STATUS alone; a command that faults has prepared besides. -/
theorem faultWritesOnlyStatus : Obligations.FaultWritesOnlyStatus := by
  intro w s t c d h hc hd hcode
  cases hw : decode w with
  | error f =>
    rw [issue_of_undecodable hc hw] at h
    cases h
    rw [faulted_getElem_cur hc] at hd
    cases hd
    exact ⟨decodeStatus f, by cases f <;> decide, statusCode_packStatus .., statusFault_packStatus .., rfl, rfl, .inl rfl,
      .inl rfl, .inl rfl⟩
  | ok i =>
    cases hchecked : checked i s c with
    | ok b =>
      obtain ⟨u, x, hu, hx, hok⟩ := issue_of_checked_ok hc hw hchecked
      cases h.symm.trans hu
      cases hd.symm.trans hx
      exact absurd hok hcode
    | error code =>
      obtain ⟨u, hu, hx, hmem, hcap, hsel32, hsel64⟩ := issue_of_checked_error hc hw hchecked
      cases h.symm.trans hu
      cases hd.symm.trans hx
      rw [statusCode_packStatus] at hcode
      refine ⟨code, ?_, statusCode_packStatus .., statusFault_packStatus .., rfl, hmem, ?_, ?_, ?_⟩
      · rintro rfl
        exact hcode rfl
      · by_cases hi : i = .crc32
        · exact .inr ⟨congrArg _ hi, hsel32.trans (hi ▸ rfl)⟩
        · exact .inl (hsel32.trans (prepared_sel32_of_ne hi))
      · by_cases hi : i = .crc64
        · exact .inr ⟨congrArg _ hi, hsel64.trans (hi ▸ rfl)⟩
        · exact .inl (hsel64.trans (prepared_sel64_of_ne hi))
      · simp only [hcap, Except.ok.injEq]
        exact prepared_cap_of_error hchecked

/-! ### The fault that is reported (R224) -/

section
variable {P : StatusCode → Prop} {r : StatusCode}

/-- No code below that of `r` has the property `P`. -/
def NoneBelow (P : StatusCode → Prop) (r : StatusCode) : Prop :=
  ∀ lower : StatusCode, lower.number < r.number → ¬ P lower

theorem noneBelow_ok : NoneBelow P .ok := fun lower hlt => absurd hlt (by cases lower <;> decide)

/-- The codes follow one another without a gap (R220). -/
theorem NoneBelow.next {r' : StatusCode} (h : NoneBelow P r) (hr : ¬ P r) (hnext : r'.number = r.number + 1) :
    NoneBelow P r' := by
  intro lower hlt
  rw [hnext] at hlt
  by_cases heq : lower.number = r.number
  · exact StatusCode.number_injective heq ▸ hr
  · exact h lower (by bv_omega)

theorem NoneBelow.none (h : NoneBelow P .memory) (hr : ¬ P .memory) (code : StatusCode) : ¬ P code := by
  by_cases heq : code = .memory
  · exact heq ▸ hr
  · refine h code ?_
    revert heq
    cases code <;> decide

/-- Of the faults that apply, `r` is the one with the lowest code; or none applies and `r` is OK. -/
def IsReported (P : StatusCode → Prop) (r : StatusCode) : Prop := (r = .ok ∧ ∀ code, ¬ P code) ∨ (P r ∧ NoneBelow P r)

theorem IsReported.spec (h : IsReported P r) (hok : ¬ P .ok) :
    (r.number = 0 ↔ ∀ code, ¬ P code) ∧
    ∀ code : StatusCode, code ≠ .ok → (r.number = code.number ↔ P code ∧ NoneBelow P code) := by
  obtain ⟨rfl, hnone⟩ | ⟨hr, hlowest⟩ := h
  · refine ⟨⟨fun _ => hnone, fun _ => rfl⟩, fun code hcode => ⟨fun h => ?_, fun ⟨hP, _⟩ => absurd hP (hnone code)⟩⟩
    exact absurd (StatusCode.number_injective h).symm hcode
  · refine ⟨⟨fun h => ?_, fun h => absurd hr (h r)⟩, fun code hcode => ⟨fun h => ?_, fun ⟨hP, hlow⟩ => ?_⟩⟩
    · obtain rfl : r = .ok := StatusCode.number_injective h
      exact absurd hr hok
    · obtain rfl := StatusCode.number_injective h
      exact ⟨hr, hlowest⟩
    · exact BitVec.le_antisymm (BitVec.not_lt.1 fun hlt => hlowest code hlt hP) (BitVec.not_lt.1 fun hlt => hlow r hlt hr)

end

/-! ### The faults of a word that decodes -/

theorem encode_mem_bufferOpcs_iff {i : Instr} : encode i ∈ bufferOpcs ↔ i ≠ .detect := by cases i <;> decide

theorem encode_mem_foldOpcs_iff {i : Instr} : encode i ∈ foldOpcs ↔ i = .fold32 ∨ i = .fold64 := by cases i <;> decide

theorem Memory.not_unreadableIn_of_holds {m : Memory} {a : Nat} {b : List Byte} (h : m.holds a b) :
    ¬ m.unreadableIn a b.length := by
  rw [← Memory.bytes_eq_none_iff, Memory.bytes_of_holds h]
  simp

/-- The code a command leaves in STATUS when its checks have answered `buf`. -/
def reportedCode : Except StatusCode (List Byte) → StatusCode
  | .error code => code
  | .ok _ => .ok

/-- A command's word leaves in STATUS what its checks answer. -/
theorem issue_statusCode {s : State} {c : Context} {w : Word32} {i : Instr} (hc : s.contexts[s.cur]? = some c)
    (hw : decode w = .ok i) : ∃ t d, issue w s = .next t ∧ t.contexts[s.cur]? = some d ∧
      statusCode d.status = (reportedCode (checked i s c)).number := by
  cases h : checked i s c with
  | error code =>
    obtain ⟨t, ht, hd, -⟩ := issue_of_checked_error hc hw h
    exact ⟨_, _, ht, hd, statusCode_packStatus ..⟩
  | ok b => exact issue_of_checked_ok hc hw h

section
variable {P : StatusCode → Prop} {s : State} {c : Context}

/-- The buffer's checks report RANGE or MEMORY, when no other fault stands between them. -/
theorem isReported_fetchBuffer (hrange : P .range ↔ c.bufAddr + c.bufLen > 2 ^ 64)
    (hmemory : P .memory ↔ s.mem.unreadableIn c.bufAddr c.bufLen) (hbelow : NoneBelow P .range)
    (hbetween : ¬ P .range → NoneBelow P .memory) :
    IsReported P (reportedCode (fetchBuffer s.mem c.bufAddr c.bufLen)) := by
  rcases fetchBuffer_cases s.mem c.bufAddr c.bufLen with ⟨hpast, h⟩ | ⟨hin, hmem, h⟩ | ⟨hin, b, hlen, hmem, h⟩
  · exact h ▸ .inr ⟨hrange.2 hpast, hbelow⟩
  · exact h ▸ .inr ⟨hmemory.2 hmem, hbetween (mt hrange.1 (Nat.not_lt.2 hin))⟩
  · have hreadable := hlen ▸ Memory.not_unreadableIn_of_holds hmem
    exact h ▸ .inl ⟨rfl, (hbetween (mt hrange.1 (Nat.not_lt.2 hin))).none (mt hmemory.1 hreadable)⟩

/-- The checks of R161 report the faults in the order of their codes. -/
theorem isReported_foldChecked (hrange : P .range ↔ c.bufAddr + c.bufLen > 2 ^ 64)
    (hmisaligned : P .misaligned ↔ c.bufAddr % 16 ≠ 0) (hlength : P .length ↔ c.bufLen % 16 ≠ 0 ∨ c.bufLen = 0)
    (hnoAccel : P .noAccel ↔ detected s = false)
    (hmemory : P .memory ↔ s.mem.unreadableIn c.bufAddr c.bufLen) (hbelow : NoneBelow P .range) :
    IsReported P (reportedCode (foldChecked s c)) := by
  by_cases h1 : P .range
  · rw [foldChecked_of_some (foldContract_range (hrange.1 h1))]
    exact .inr ⟨h1, hbelow⟩
  have hbelow2 : NoneBelow P .misaligned := hbelow.next h1 rfl
  have hin := Nat.not_lt.1 (mt hrange.2 h1)
  by_cases h2 : P .misaligned
  · rw [foldChecked_of_some (foldContract_misaligned hin (hmisaligned.1 h2))]
    exact .inr ⟨h2, hbelow2⟩
  have hbelow3 : NoneBelow P .length := hbelow2.next h2 rfl
  have haligned := not_not.1 (mt hmisaligned.2 h2)
  by_cases h3 : P .length
  · rw [foldChecked_of_some (foldContract_length hin haligned (hlength.1 h3))]
    exact .inr ⟨h3, hbelow3⟩
  have hbelow4 : NoneBelow P .noAccel := hbelow3.next h3 rfl
  obtain ⟨hlanes, hpos⟩ := not_or.1 (mt hlength.2 h3)
  have hcontract := foldContract_eq_none_iff.2 ⟨hin, haligned, not_not.1 hlanes, hpos⟩
  by_cases h4 : P .noAccel
  · rw [foldChecked_of_not_detected hcontract (hnoAccel.1 h4)]
    exact .inr ⟨h4, hbelow4⟩
  · rw [foldChecked_of_detected hcontract (eq_true_of_ne_false (mt hnoAccel.2 h4))]
    exact isReported_fetchBuffer hrange hmemory hbelow fun _ => hbelow4.next h4 rfl

end

section
variable {s : State} {c : Context} {w : Word32}

theorem not_applies_ok : ¬ applies s c w .ok := id

theorem noneBelow_reservedBits (hopc : w &&& 0xFF ∈ assigned) : NoneBelow (applies s c w) .reservedBits :=
  (noneBelow_ok.next (r' := .illegalOpcode) not_applies_ok rfl).next (not_not_intro hopc) rfl

/-- The checks of a command report the fault that applies to its word. -/
theorem isReported_checked {i : Instr} (hopc : w &&& 0xFF = encode i) (hrsv : w >>> 8 = 0) :
    IsReported (applies s c w) (reportedCode (checked i s c)) := by
  have hbelow : NoneBelow (applies s c w) .range :=
    (noneBelow_reservedBits (hopc ▸ encode_mem_assigned i)).next (not_not_intro hrsv) rfl
  have hbuffer : w &&& 0xFF ∈ bufferOpcs ↔ i ≠ .detect := hopc ▸ encode_mem_bufferOpcs_iff
  have hfold : w &&& 0xFF ∈ foldOpcs ↔ i = .fold32 ∨ i = .fold64 := hopc ▸ encode_mem_foldOpcs_iff
  -- where FOLD's faults do not apply, nothing stands between RANGE and MEMORY
  have hbetween (hno : w &&& 0xFF ∉ foldOpcs) (hrange : ¬ applies s c w .range) : NoneBelow (applies s c w) .memory :=
    have hmisaligned : NoneBelow (applies s c w) .misaligned := hbelow.next hrange rfl
    have hlength : NoneBelow (applies s c w) .length := hmisaligned.next (fun h => hno h.1) rfl
    have hnoAccel : NoneBelow (applies s c w) .noAccel := hlength.next (fun h => hno h.1) rfl
    hnoAccel.next (fun h => hno h.1) rfl
  cases i with
  | detect =>
    have hno : w &&& 0xFF ∉ bufferOpcs := mt hbuffer.1 (by decide)
    exact .inl ⟨rfl, (hbetween (mt hfold.1 (by decide)) fun h => hno h.1).none fun h => hno h.1⟩
  | fold32 | fold64 =>
    have hyes := hbuffer.2 (by decide)
    have hyes' := hfold.2 (by decide)
    exact isReported_foldChecked (and_iff_right hyes) (and_iff_right hyes') (and_iff_right hyes') (and_iff_right hyes')
      (and_iff_right hyes) hbelow
  | crc32 | crc64 | gen32 | gen64 =>
    have hyes := hbuffer.2 (by decide)
    exact isReported_fetchBuffer (and_iff_right hyes) (and_iff_right hyes) hbelow (hbetween (mt hfold.1 (by decide)))

/-- Every word leaves in STATUS the fault that R224 gives it. -/
theorem issue_isReported (hc : s.contexts[s.cur]? = some c) (w : Word32) :
    ∃ r, IsReported (applies s c w) r ∧
      ∃ t d, issue w s = .next t ∧ t.contexts[s.cur]? = some d ∧ statusCode d.status = r.number := by
  by_cases hopc : w &&& 0xFF ∈ assigned
  · by_cases hrsv : w >>> 8 = 0
    · obtain ⟨i, hi⟩ := exists_encode_of_assigned hopc
      have hw : decode w = .ok i := by rw [decode_of_opc_eq_encode hi, if_pos (rsvField_eq_zero_iff.2 hrsv)]
      exact ⟨_, isReported_checked hi hrsv, issue_statusCode hc hw⟩
    · exact ⟨.reservedBits, .inr ⟨hrsv, noneBelow_reservedBits hopc⟩, _, _,
        issue_of_undecodable hc (decode_of_reserved hopc hrsv), faulted_getElem_cur hc _, statusCode_packStatus ..⟩
  · exact ⟨.illegalOpcode, .inr ⟨hopc, noneBelow_ok.next not_applies_ok rfl⟩, _, _,
      issue_of_undecodable hc (decode_of_unassigned hopc), faulted_getElem_cur hc _, statusCode_packStatus ..⟩

end

/-- Settles O39, by the fault that each word is given. -/
theorem lowestApplicableFaultIsReported : Obligations.LowestApplicableFaultIsReported := by
  intro s c w hc
  obtain ⟨r, hr, t, d, ht, hd, hcode⟩ := issue_isReported hc w
  refine ⟨t, d, ht, hd, ?_⟩
  rw [hcode]
  exact hr.spec not_applies_ok

end Sys2Proof.Machine
end

section
/-! PROOFS. The host's own actions (30_encoding.md R80, R81, 20_memory.md R63, R67), an action of an absent context (10_state.md
R20), and the state after reset (R36). -/

open Sys2Proof.Expected

namespace Sys2Proof.Machine

/-! ### An absent context -/

theorem exec_of_absent {s : State} (h : s.contexts[s.cur]? = none) (i : Instr) : exec i s = .fault .noSuchContext := by
  cases i <;> exact withContext_of_none _ h

/-- The write to CMD makes no context. -/
theorem writeCmd_of_absent {s : State} (h : s.contexts[s.cur]? = none) (w : Word32) :
    (s.writeCmd w).contexts[(s.writeCmd w).cur]? = none := by
  simpa using h

/-- Settles O6: every action begins by asking for its context. -/
theorem actionOfAnAbsentContextStops : Obligations.ActionOfAnAbsentContextStops := by
  refine fun s h => ⟨exec_of_absent h, fun op => ?_⟩
  cases op with
  | set r v => exact withContext_of_none _ h
  | movCrcinResult => exact withContext_of_none _ h
  | read r => exact withContext_of_none _ h
  | store a b => exact withContext_of_none _ h
  | issue w =>
    have habsent := writeCmd_of_absent h w
    cases hw : decode w with
    | ok i => rw [portAction, issue_of_decode_ok hw, exec_of_absent habsent]
    | error f =>
      rw [portAction, issue_of_decode_error hw]
      exact withContext_of_none _ habsent

/-! ### `set`, `mov` and `read` -/

section
variable {s : State} {c : Nat} {x : Context} {rest : List HostAction}

theorem step_set (hx : s.contexts[c]? = some x) {r : OperandReg} {v : Word} (hp : s.pending = ⟨c, .set r v⟩ :: rest) :
    step s = .next { s with cur := c, pending := rest, contexts := s.contexts.set c (x.setOperand r v) } := by
  rw [step_of_pending hp, portAction, portSet, withContext_of_some (s := s.beginAction c rest) _ hx]
  exact congrArg _ (modifyCur_eq_set (s := s.beginAction c rest) hx _)

theorem step_mov (hx : s.contexts[c]? = some x) (hp : s.pending = ⟨c, .movCrcinResult⟩ :: rest) :
    step s = .next { s with
      cur := c, pending := rest, refusalMark := s.refusalMark || !x.result.held,
      contexts := s.contexts.set c { x with crcin := .written x.result.value } } := by
  rw [step_of_pending hp, portAction, portMov, withContext_of_some (s := s.beginAction c rest) _ hx]
  exact congrArg _ (modifyCur_eq_set (s := (s.beginAction c rest).markUnless x.result.held) hx _)

theorem step_read (hx : s.contexts[c]? = some x) {r : ReadReg} (hp : s.pending = ⟨c, .read r⟩ :: rest) :
    step s = .next { s with
      cur := c, pending := rest, refusalMark := s.refusalMark || !x.readHeld r,
      returned := ⟨c, r, x.readValue r⟩ :: s.returned } := by
  rw [step_of_pending hp]
  exact withContext_of_some (s := s.beginAction c rest) _ hx

theorem step_store (hx : s.contexts[c]? = some x) {a : Word} {b : Byte} (hp : s.pending = ⟨c, .store a b⟩ :: rest) :
    step s = .next { s with cur := c, pending := rest, mem := s.mem.write a.toNat b } := by
  rw [step_of_pending hp]
  exact withContext_of_some (s := s.beginAction c rest) _ hx

end

/-- Settles O46: `set` for each operand register, then `mov`. -/
theorem setAndMovWriteOneRegister : Obligations.SetAndMovWriteOneRegister :=
  fun _ _ _ _ hx => ⟨fun _ => step_set hx, fun _ => step_set hx, fun _ => step_set hx, step_mov hx⟩

/-- Settles O47: STATUS always holds a value, so its read leaves the mark as it is. -/
theorem readReturnsTheRegister : Obligations.ReadReturnsTheRegister := by
  refine fun s c x rest hx => ⟨step_read hx, fun hp => (step_read hx hp).trans ?_⟩
  simp [Context.readHeld, Context.readValue]

/-! ### A host's store -/

/-- Settles O48, by what a memory in canonical form reads after a store. -/
theorem hostStoreWritesOneByte : Obligations.HostStoreWritesOneByte := by
  intro s c a b rest hm hc hp
  refine ⟨s.mem.write a.toNat b, step_store (List.getElem?_eq_getElem hc) hp, Memory.write_wf hm _ b, ?_, fun x hx => ?_⟩
  · rw [Memory.read_write hm, Memory.read_isSome]
    cases ha : s.mem.readable a.toNat with
    | true => simp
    | false => simpa using ha
  · rw [Memory.read_write hm, if_neg fun h => hx h.1]

/-! ### Reset -/

theorem eq_reset_of_mem_reset {c : Context} (hc : c ∈ State.reset.contexts) : c = Context.reset := by
  obtain rfl | hc := List.mem_cons.1 hc
  · rfl
  · exact List.eq_of_mem_replicate hc

/-- Settles O50: every context is the context right after reset. -/
theorem resetLeavesTheSpecifiedValues : Obligations.ResetLeavesTheSpecifiedValues := by
  refine ⟨List.cons_ne_nil _ _, fun c hc => ?_, rfl, rfl, rfl, rfl⟩
  rw [eq_reset_of_mem_reset hc]
  exact ⟨rfl, rfl, rfl, rfl, rfl⟩

/-- Settles O51: no byte is listed, STATUS is 0, and no cell is filled. -/
theorem invariantHoldsAtReset : Obligations.InvariantHoldsAtReset where
  memWf := Memory.no_cells_wf Config.readable
  someContext := List.cons_ne_nil _ _
  statusLegal c hc := eq_reset_of_mem_reset hc ▸ by decide
  capAgrees h := absurd rfl h
  sel32Agrees h := absurd rfl h
  sel64Agrees h := absurd rfl h

end Sys2Proof.Machine
end
